-- ==== Sys2Proof/Word.lean ====
section
/-! DEFINITION. The word types of the engine: the framebuffer byte, the channel, the rectangle field
and the command word. Bit 0 is the least significant bit of each (spec 00_scope.md R8). -/

namespace Sys2Proof

/-- One framebuffer byte, and one 8-bit channel or filter colour (R30, R52). -/
abbrev Byte := BitVec 8

/-- One rectangle field: 16-bit two's complement (R50, R52, decision D9). -/
abbrev Coord := BitVec 16

/-- One command word of the single format `CW128` (R51). -/
abbrev CmdWord := BitVec 128

end Sys2Proof
end

