-- ==== Sys2Proof/Config.lean ====
section
/-! DEFINITION. What is fixed when the block is built (spec 00_scope.md R3, R6): the pixel format, the
monochrome bandwidth and the threshold ROM. The values of the default build stand in
Sys2Proof/Machine/Build.lean. There is no free value: the spec leaves no result of a command open. -/

namespace Sys2Proof

/-- The two build variants (R3): 1 bit per pixel, or 6 bits of colour in one byte per pixel. -/
inductive Format where
  | mono
  | color
  deriving DecidableEq, Repr

/-- The two admitted values of `BW_MONO` (R6, R81, 90_conflicts.md C1). -/
inductive BwMono where
  | bw128
  | bw256
  deriving DecidableEq, Repr

/-- The threshold ROM `M`: 64 entries of 6 bits, row by row; entry `8 * row + col` is `M[row][col]` (R12). -/
abbrev Matrix := Vector (BitVec 6) 64

/-- The build parameters. They ride in the state because a step takes nothing else; no step writes
them (R3, R20; log 2). DESIGN CHOICE. -/
structure Config where
  format : Format
  bwMono : BwMono
  matrix : Matrix
  deriving DecidableEq, Repr

/-- R71(b): no value occurs twice among the 64 six-bit entries, so each of 0..63 occurs exactly once. -/
abbrev Config.wf (c : Config) : Prop := c.matrix.toList.Nodup

end Sys2Proof
end

