-- ==== Sys2Proof/Machine/Build.lean ====
section
/-! DEFINITION. The default build: the values the spec gives its build parameters (00_scope.md R6), and
the pixel format this model's reset state takes (log 2). -/

namespace Sys2Proof.Machine

/-- The 64 values of R72, row by row: the standard Bayer index matrix. PRESUMED by the spec itself
(decision D1, 93_implementation_defined.md G1; log 3). -/
def defaultMatrix : Matrix :=
  #v[ 0, 32,  8, 40,  2, 34, 10, 42,
     48, 16, 56, 24, 50, 18, 58, 26,
     12, 44,  4, 36, 14, 46,  6, 38,
     60, 28, 52, 20, 62, 30, 54, 22,
      3, 35, 11, 43,  1, 33,  9, 41,
     51, 19, 59, 27, 49, 17, 57, 25,
     15, 47,  7, 39, 13, 45,  5, 37,
     63, 31, 55, 23, 61, 29, 53, 21]

/-- The build variant of the reset state. DESIGN CHOICE: the spec has two variants and no default (log 2). -/
def defaultFormat : Format := .color

/-- `BW_MONO` of this hardware (R6, decision D3, 90_conflicts.md C1; log 4). -/
def defaultBwMono : BwMono := .bw128

/-- The default build. -/
def defaultConfig : Config :=
  { format := defaultFormat, bwMono := defaultBwMono, matrix := defaultMatrix }

end Sys2Proof.Machine
end

