-- ==== Sys2Proof/Syntax.lean ====
section
/-! DEFINITION. The abstract commands of spec 30_encoding.md R50, one constructor for each row of
spec/opcode_table.json. -/

namespace Sys2Proof

/-- A requested rectangle in absolute screen coordinates: origin `(x, y)`, size `(w, h)` (R50). -/
structure Rect where
  x : Coord
  y : Coord
  w : Coord
  h : Coord
  deriving DecidableEq, Repr

/-- A linear colour, three unsigned 8-bit channels (R50). -/
structure Colour where
  r : Byte
  g : Byte
  b : Byte
  deriving DecidableEq, Repr

/-- The commands. `replace` is `Replace(rect, Eq(c), col)` and `replaceAny` is `Replace(rect, Any, col)`
of R50. -/
inductive Instr where
  /-- FILL x, y, w, h, r, g, b (R155). -/
  | fill (rect : Rect) (col : Colour)
  /-- REPLACE x, y, w, h, #cc, r, g, b (R160). -/
  | replace (rect : Rect) (c : Byte) (col : Colour)
  /-- REPLACE.ANY x, y, w, h, r, g, b (R161). -/
  | replaceAny (rect : Rect) (col : Colour)
  deriving DecidableEq, Repr

end Sys2Proof
end

