-- ==== Sys2Proof/Machine/State.lean ====
section
/-! DEFINITION. The state of the engine (spec 10_state.md R11), the host memory it works on, the host's
moves to come and the port events so far, as plain data; the reasons a step can stop; the state
after reset (R23). -/

namespace Sys2Proof.Machine

/-! ### The engine's own state -/

/-- `cmd.op` (R13). -/
inductive Op where
  | fill
  | replace
  deriving DecidableEq, Repr

/-- The command latch: its ten fields, the colour's three and the rectangle's four grouped (R13). -/
structure Latch where
  op     : Op
  wild   : Bool
  fcolor : Byte
  col    : Colour
  rect   : Rect
  deriving DecidableEq, Repr

/-- `PHASE` (R14). -/
inductive Phase where
  | idle
  | req
  | scan
  | rel
  deriving DecidableEq, Repr

/-- What a geometry says of one row: `row_base(y)`, `min_x(y)`, `max_x(y)` (R6, R15). -/
structure RowGeo where
  base : Nat
  minX : Int
  maxX : Int
  deriving DecidableEq, Repr

/-- `geo`: the rows 0, 1, ..., `H - 1` of a framebuffer, `H` being their number (R15, R30). -/
structure Geometry where
  rows : List RowGeo
  deriving DecidableEq, Repr

/-- `H`, the framebuffer height. -/
def Geometry.height (g : Geometry) : Int := g.rows.length

/-! ### The host's side -/

/-- A run of `len` bytes of framebuffer storage from `base` on, handed over with a grant (R35(b)). -/
structure Region where
  base : Nat
  len  : Nat
  deriving DecidableEq, Repr

/-- A granted capture: the geometry the engine receives, and the storage the host has handed over for
it, which the engine never sees (R35; log 13). -/
structure Grant where
  geo     : Geometry
  storage : List Region
  deriving DecidableEq, Repr

/-- The host's answer to one capture request (R137). -/
inductive Answer where
  | grant (g : Grant)
  | deny
  deriving DecidableEq, Repr

/-- A move of the host toward an idle engine: it presents a command word, writes a framebuffer byte, or
resets the engine (R10, R190, R206; log 9). -/
inductive HostMove where
  | command (w : CmdWord)
  | store (a : Nat) (v : Byte)
  | reset
  deriving DecidableEq, Repr

/-- An event at the five ports (R22, R147). -/
inductive Event where
  | take (w : CmdWord)
  | captureRequest
  | grant (g : Geometry)
  | deny
  | memRead (a : Nat) (v : Byte)
  | memWrite (a : Nat) (v : Byte)
  | release
  | done
  deriving DecidableEq, Repr

/-- The framebuffer space: the bytes that differ from what an unlisted address reads as, by rising
address (R19, R30). -/
abbrev Memory := List Host.Cell

/-- The value of one pixel: the stored bit in `MONO`, the stored byte in `COLOR` (R92, R146). -/
inductive Pixel where
  | bit (on : Bool)
  | byte (v : Byte)
  deriving DecidableEq, Repr

/-! ### The state -/

/-- R11, with the build parameters (log 2), the framebuffer space, the host's moves and answers to come
(log 9) and the port events so far (log 14). -/
structure State where
  cfg     : Config
  cmd     : Latch
  phase   : Phase
  held    : Bool
  geo     : Geometry
  y0      : Int
  yend    : Int
  cy      : Int
  cx      : Int
  xe      : Int
  mem     : Memory
  host    : List HostMove
  answers : List Answer
  trace   : List Event
  deriving DecidableEq, Repr

/-- Why the machine stops with a fault. The hardware has no fault (R170); these are the model's internal
errors in states no run reaches (93_implementation_defined.md U2; log 15). -/
inductive Fault where
  /-- Raised by a busy step in phase `SCAN` or `REL` with `HELD = 0`: `geo` would be read, or a release
  issued, without a capture. Safe: R15 and R141 exclude the state. -/
  | captureNotHeld
  /-- Raised by a busy step in phase `SCAN` whose position is not a visible pixel of the granted geometry.
  Safe: R16 excludes the state. -/
  | scanOutsideGeometry
  deriving DecidableEq, Repr

/-- Why a step has no meaning. -/
inductive Refusal where
  /-- An instruction whose arm of `exec` has no meaning yet. No arm is left so. Safe. -/
  | notModelled (mnemonic : String)
  /-- Raised when the host answers a capture request with a grant whose geometry breaks R35: outside the
  spec, "a model refuses it" (R35, U6; log 13). Safe: nothing is claimed of such a run. -/
  | illFormedGeometry
  deriving DecidableEq, Repr

/-! ### Reset -/

/-- The latch after reset. DESIGN CHOICE: R23 leaves it unspecified (log 5). -/
def Latch.reset : Latch :=
  { op := .fill, wild := false, fcolor := 0, col := ⟨0, 0, 0⟩, rect := ⟨0, 0, 0, 0⟩ }

/-- The engine after reset, of a given build, with nothing in memory and no host move to come (R23, R190).
The latch, `geo` and the scan registers are DESIGN CHOICES (logs 5, 6). -/
def State.resetOf (cfg : Config) : State :=
  { cfg := cfg, cmd := Latch.reset, phase := .idle, held := false, geo := ⟨[]⟩,
    y0 := 0, yend := 0, cy := 0, cx := 0, xe := 0,
    mem := [], host := [], answers := [], trace := [] }

/-- The machine right after reset, of the default build (R23). -/
def State.reset : State := State.resetOf defaultConfig

end Sys2Proof.Machine
end

