-- ==== Sys2Proof/Machine/Ops.lean ====
section
/-! DEFINITION. The named operations: the framebuffer byte memory, the two `MEM` accesses, the command
latch, and the port operations of a command's life (spec 44_command_execution.md R135 to R142).
There is no operation for taking an exception or returning from one: the block raises none and has no
trap entry or return (60_exceptions.md R170, R178, R179). -/

namespace Sys2Proof.Machine

/-! ### Byte memory -/

/-- What a byte that nothing has written reads as. DESIGN CHOICE: the framebuffer's content before the
host writes it is not the engine's (R20b, R23; log 7). -/
def Memory.unlisted : Byte := 0

/-- The byte at an address (R39). -/
def Memory.read : Memory → Nat → Byte
  | [], _ => Memory.unlisted
  | (b, v) :: rest, a => if a = b then v else Memory.read rest a

/-- The memory without the entry of an address. -/
def Memory.erase : Memory → Nat → Memory
  | [], _ => []
  | (b, v) :: rest, a => if a = b then rest else (b, v) :: Memory.erase rest a

/-- The memory with an entry for an address, in its place by rising address. -/
def Memory.insert : Memory → Nat → Byte → Memory
  | [], a, v => [(a, v)]
  | (b, u) :: rest, a, v =>
    if a < b then (a, v) :: (b, u) :: rest
    else if a = b then (a, v) :: rest
    else (b, u) :: Memory.insert rest a v

/-- Writing one byte; writing what an unlisted address reads as removes the entry (R39). -/
def Memory.write (m : Memory) (a : Nat) (v : Byte) : Memory :=
  if v = Memory.unlisted then Memory.erase m a else Memory.insert m a v

/-- The canonical form: addresses strictly rising, no entry equal to what an unlisted address reads as. -/
abbrev Memory.wf (m : Memory) : Prop :=
  m.Pairwise (fun c d => c.1 < d.1) ∧ ∀ c ∈ m, c.2 ≠ Memory.unlisted

/-! ### Ports -/

/-- Records a port event (R147; log 14). -/
def emit (e : Event) (s : State) : State := { s with trace := s.trace ++ [e] }

/-- `MemRead(a, 1)`: the byte, and the state after the access (R8, R36). -/
def memRead (a : Nat) (s : State) : Byte × State := (s.mem.read a, emit (.memRead a (s.mem.read a)) s)

/-- `MemWrite(a, 1, v)` (R8, R36). -/
def memWrite (a : Nat) (v : Byte) (s : State) : State :=
  emit (.memWrite a v) { s with mem := s.mem.write a v }

/-- `Done()` and the return to `IDLE` (R142). -/
def signalDone (s : State) : State := emit .done { s with phase := .idle }

/-- `Release()` and `HELD <- 0` (R141). -/
def releaseCapture (s : State) : State := emit .release { s with held := false }

/-- R135, row `REL`: release, then completion. -/
def finishCommand (s : State) : State := signalDone (releaseCapture s)

/-- The latch is written, all ten fields at once, and the capture is requested (R135, R136, R137). -/
def acceptCommand (k : Latch) (s : State) : State :=
  emit .captureRequest { s with cmd := k, phase := .req }

/-- R138: a denied command completes with no access and no release. -/
def denyCapture (s : State) : State := signalDone (emit .deny s)

/-- The engine's reset: R23, R190. The build, the framebuffer and the host's side are not touched
(R190, R192; log 17). -/
def resetEngine (s : State) : State :=
  { State.resetOf s.cfg with mem := s.mem, host := s.host, answers := s.answers, trace := s.trace }

end Sys2Proof.Machine
end

