-- ==== Sys2Proof/Machine/Flags.lean ====
section
/-! DEFINITION. The block has no condition codes and no sticky flags (spec 10_state.md R17). What stands
here is the derived status bit `BUSY` (R18) and the one comparison whose result is used in the step
that makes it and not kept (46_replace.md R162). -/

namespace Sys2Proof.Machine

/-- `BUSY` (R17, R18). -/
def State.busy (s : State) : Bool := s.phase != .idle

/-- `Match(cur)` in `COLOR`: the wildcard, or equality of all eight bits (R162, R163). -/
def matchColor (k : Latch) (cur : Byte) : Bool := k.wild || cur == k.fcolor

/-- `Match(cur)` in `MONO`: the wildcard, or equality with bit 0 of the filter (R162, R164). -/
def matchMono (k : Latch) (cur : Bool) : Bool := k.wild || cur == k.fcolor.getLsbD 0

end Sys2Proof.Machine
end

