-- ==== Sys2Proof/Machine/Operands.lean ====
section
/-! DEFINITION. The operand forms: the rectangle's fields as signed integers (spec 30_encoding.md R52),
the one addressing mode, the pixel at a position (20_memory.md R34, 44_command_execution.md R151),
which grants are well formed (R35), and clipping (42_clipping.md R102, R103). -/

namespace Sys2Proof.Machine

/-! ### Rectangle fields, R52 -/

def Latch.xInt (k : Latch) : Int := k.rect.x.toInt
def Latch.yInt (k : Latch) : Int := k.rect.y.toInt
def Latch.wInt (k : Latch) : Int := k.rect.w.toInt
def Latch.hInt (k : Latch) : Int := k.rect.h.toInt

/-! ### Rows and addresses -/

/-- A row with no visible column. -/
def RowGeo.empty : RowGeo := { base := 0, minX := 0, maxX := -1 }

/-- Row `y` of a geometry. A number that is no row (R16 excludes that it is asked for) has no visible
column (log 20). -/
def Geometry.row (g : Geometry) (y : Int) : RowGeo :=
  if 0 ≤ y then g.rows.getD y.toNat RowGeo.empty else RowGeo.empty

/-- R34: the byte address of the pixel at column `x` of a row. -/
def pixelAddr (fmt : Format) (r : RowGeo) (x : Int) : Nat :=
  match fmt with
  | .mono => r.base + (x / 8).toNat
  | .color => r.base + x.toNat

/-- R34: the bit of that byte, in `MONO`. -/
def pixelBit (x : Int) : Nat := (x % 8).toNat

/-- The byte address of the pixel at position `(x, y)` of a geometry (R34). -/
def Geometry.addr (fmt : Format) (g : Geometry) (x y : Int) : Nat := pixelAddr fmt (g.row y) x

/-! ### Well-formed grants, R35 -/

/-- The visible columns of a row, ascending (R30). -/
def RowGeo.columns (r : RowGeo) : List Int :=
  (List.range (r.maxX - r.minX + 1).toNat).map fun (n : Nat) => r.minX + (n : Int)

/-- The number of the first storage cell of a row's column 0: cells are bytes in `COLOR` and bits in
`MONO`, so that the pixel at column `x` is cell `rowCell + x` (R34). -/
def rowCell (fmt : Format) (r : RowGeo) : Int :=
  match fmt with
  | .mono => 8 * (r.base : Int)
  | .color => (r.base : Int)

/-- Two rows have no storage cell in common; a row with no visible column has none. -/
abbrev rowsApart (fmt : Format) (r q : RowGeo) : Prop :=
  r.maxX < r.minX ∨ q.maxX < q.minX ∨
    rowCell fmt r + r.maxX < rowCell fmt q + q.minX ∨ rowCell fmt q + q.maxX < rowCell fmt r + r.minX

/-- R35(a): no row begins left of column 0. -/
abbrev Geometry.columnsNonneg (g : Geometry) : Prop := ∀ r ∈ g.rows, 0 ≤ r.minX

/-- R35(c): two visible positions never share a storage cell. -/
abbrev Geometry.cellsDistinct (fmt : Format) (g : Geometry) : Prop := g.rows.Pairwise (rowsApart fmt)

/-- An address lies in the storage handed over. -/
abbrev inStorage (storage : List Region) (a : Nat) : Prop :=
  ∃ q ∈ storage, q.base ≤ a ∧ a < q.base + q.len

/-- R35(b): every visible position has its byte in the storage handed over. -/
abbrev Grant.stored (fmt : Format) (g : Grant) : Prop :=
  ∀ r ∈ g.geo.rows, ∀ x ∈ r.columns, inStorage g.storage (pixelAddr fmt r x)

/-- R35: the grants this spec is about. -/
abbrev Grant.wf (fmt : Format) (g : Grant) : Prop :=
  g.geo.columnsNonneg ∧ g.stored fmt ∧ g.geo.cellsDistinct fmt

/-- R35, as the test the model makes of an answer (log 13). -/
def Grant.ok (fmt : Format) (g : Grant) : Bool := decide (g.wf fmt)

/-! ### Clipping -/

/-- R102: the first row and one past the last row of the clipped rectangle, the two adjustments in the
order the rule gives. -/
def clipRows (y h height : Int) : Int × Int :=
  let (y0, hh) := if y < 0 then (0, h + y) else (y, h)
  let hh := if height < y0 + hh then height - y0 else hh
  (y0, y0 + hh)

/-- R103: the first and the last column to visit in a row, both inclusive. -/
def clipCols (x w : Int) (r : RowGeo) : Int × Int := (max x r.minX, min (x + w - 1) r.maxX)

end Sys2Proof.Machine
end

