-- ==== Sys2Proof/Machine/Quantizer.lean ====
section
/-! DEFINITION. `threshold_matrix_lut` (spec 40_threshold_matrix.md) and `per_pixel_quantizer`
(41_quantizer.md): pure functions of the build, the colour and the position. -/

namespace Sys2Proof.Machine

/-- `T(x, y) = M[y mod 8][x mod 8]` (R73). -/
def threshold (m : Matrix) (x y : Int) : Nat :=
  (m[8 * (y % 8).toNat + (x % 8).toNat]'(by omega)).toNat

/-- `MATRIX_RANGE` (R6, R75). -/
def matrixRange : Nat := 64

/-- `BW_COLOR` (R6, R81). -/
def bwColor : Nat := 64

/-- The two admitted values of `BW_MONO` (R6, R81). -/
def bandwidth : BwMono → Nat
  | .bw128 => 128
  | .bw256 => 256

/-- Steps 1 and 2 of R82: the residual rescaled into the matrix's range. -/
def scaled (v bw : Nat) : Nat := (v % bw * matrixRange) / bw

/-- `Q(v, t, bw, L)` (R82). -/
def quantize (v t bw top : Nat) : Nat :=
  let base := v / bw
  let q0 := if t < scaled v bw then base + 1 else base
  min q0 top

/-- `PixelColor`: marker bits 7:6 set, then the red, green and blue levels (R33, R84). -/
def pixelColor (cfg : Config) (col : Colour) (cx cy : Int) : Byte :=
  let t := threshold cfg.matrix cx cy
  let qr := quantize col.r.toNat t bwColor 3
  let qg := quantize col.g.toNat t bwColor 3
  let qb := quantize col.b.toNat t bwColor 3
  BitVec.ofNat 8 (0xC0 + 16 * qr + 4 * qg + qb)

/-- `Luma(r, g, b)` (R86). -/
def luma (col : Colour) : Nat := (3 * col.r.toNat + 4 * col.g.toNat + col.b.toNat) / 8

/-- `PixelMono`: level 1 is the "on" bit (R32, R86). -/
def pixelMono (cfg : Config) (col : Colour) (cx cy : Int) : Bool :=
  quantize (luma col) (threshold cfg.matrix cx cy) (bandwidth cfg.bwMono) 1 == 1

/-- `Pixel(cx, cy, r, g, b)`: the one interface with two configurations (R92). -/
def pixelFor (cfg : Config) (col : Colour) (cx cy : Int) : Pixel :=
  match cfg.format with
  | .mono => .bit (pixelMono cfg col cx cy)
  | .color => .byte (pixelColor cfg col cx cy)

end Sys2Proof.Machine
end

