-- ==== Sys2Proof/Machine/Writer.lean ====
section
/-! DEFINITION. `packed_framebuffer_writer` (spec 43_framebuffer_writer.md): pixel loads and stores at the
scan position, and the four pixel steps built from them. -/

namespace Sys2Proof.Machine

/-- R8: the byte `b` with bit `k` made `q`. -/
def setbit (b : Byte) (k : Nat) (q : Bool) : Byte :=
  if q then b ||| BitVec.twoPow 8 k else b &&& ~~~(BitVec.twoPow 8 k)

/-- `addr(cx, cy)` of the current geometry: the one effective address (R34, R151). -/
def State.curAddr (s : State) : Nat := s.geo.addr s.cfg.format s.cx s.cy

/-- `PixelColor` of the latched colour at the scan position (R84). -/
def State.curColor (s : State) : Byte := pixelColor s.cfg s.cmd.col s.cx s.cy

/-- `PixelMono` of the latched colour at the scan position (R86). -/
def State.curMono (s : State) : Bool := pixelMono s.cfg s.cmd.col s.cx s.cy

/-- R117: the stored byte. -/
def loadPixelColor (s : State) : Byte × State := memRead s.curAddr s

/-- R118: the pixel's bit, the whole byte, and the state after the read. -/
def loadPixelMono (s : State) : Bool × Byte × State :=
  let (old, s1) := memRead s.curAddr s
  (old.getLsbD (pixelBit s.cx), old, s1)

/-- R119. -/
def storePixelColor (p : Byte) (s : State) : State := memWrite s.curAddr p s

/-- R121: the write half of the read-modify-write. -/
def storeBitMono (old : Byte) (q : Bool) (s : State) : State :=
  memWrite s.curAddr (setbit old (pixelBit s.cx) q) s

/-- R120. -/
def stepFillColor (s : State) : State := storePixelColor s.curColor s

/-- R122. -/
def stepFillMono (s : State) : State :=
  let (_, old, s1) := loadPixelMono s
  storeBitMono old s1.curMono s1

/-- R123. -/
def stepReplaceColor (s : State) : State :=
  let (cur, s1) := loadPixelColor s
  if matchColor s1.cmd cur then storePixelColor s1.curColor s1 else s1

/-- R124. -/
def stepReplaceMono (s : State) : State :=
  let (cur, old, s1) := loadPixelMono s
  if matchMono s1.cmd cur then storeBitMono old s1.curMono s1 else s1

/-- R140: the pixel step is selected by `cmd.op` and the build's format. -/
def pixelStep (s : State) : State :=
  match s.cmd.op, s.cfg.format with
  | .fill, .color => stepFillColor s
  | .fill, .mono => stepFillMono s
  | .replace, .color => stepReplaceColor s
  | .replace, .mono => stepReplaceMono s

end Sys2Proof.Machine
end

