-- ==== Sys2Proof/Machine/Sequencer.lean ====
section
/-! DEFINITION. The sequencer (spec 44_command_execution.md): the scan of R139, written once as the rule's
two loops and once as the single moves of the phase table R135, and the life of a command. -/

namespace Sys2Proof.Machine

/-! ### The scan position -/

/-- The start of row `cy`: its column range is computed and `cx` placed on its first column (R103, R139). -/
def startRow (s : State) : State :=
  let (xs, xe) := clipCols s.cmd.xInt s.cmd.wInt (s.geo.row s.cy)
  { s with cx := xs, xe := xe }

/-- The number of columns left in the current row. -/
def State.colsLeft (s : State) : Nat := (s.xe - s.cx + 1).toNat

/-- The number of rows left from row `cy` on. -/
def State.rowsLeft (s : State) : Nat := (s.yend - s.cy).toNat

/-- `cx <- cx + 1` (R139). -/
def nextCol (s : State) : State := { s with cx := s.cx + 1 }

/-- `cy <- cy + 1` (R139). -/
def nextRow (s : State) : State := { s with cy := s.cy + 1 }

/-! ### The loops of R139 -/

/-- The inner loop: the pixel step at `cx` and at the `n - 1` columns after it. -/
def scanCols : Nat → State → State
  | 0, s => s
  | n + 1, s => scanCols n (nextCol (pixelStep s))

/-- The body of the outer loop. -/
def scanRow (s : State) : State :=
  let s1 := startRow s
  nextRow (scanCols s1.colsLeft s1)

/-- The outer loop: row `cy` and the `n - 1` rows after it. -/
def scanRows : Nat → State → State
  | 0, s => s
  | n + 1, s => scanRows n (scanRow s)

/-! ### Grant and command -/

/-- R135, row `REQ` with `Grant(g)`: `geo <- g`, `HELD <- 1`, the rows are clipped and the position is on
the first of them; where no pixel is left to visit the phase `REL` follows at once. -/
def grantCapture (g : Geometry) (s : State) : State :=
  let (y0, yend) := clipRows s.cmd.yInt s.cmd.hInt g.height
  emit (.grant g) { s with phase := .scan, geo := g, held := true, y0 := y0, yend := yend, cy := y0 }

/-- What follows the capture request, the host's answer being ready: nothing after `Deny` (R138), the whole
scan and the release after a well-formed `Grant` (R139, R141). With no answer the engine waits in `REQ`
(R137, R197; log 11). An ill-formed grant is outside the spec (R35, U6; log 13). -/
def runCaptured (s : State) : Host.Outcome State Fault Refusal :=
  match s.answers with
  | [] => .next s
  | .deny :: rest => .next (denyCapture { s with answers := rest })
  | .grant g :: rest =>
    if g.ok s.cfg.format then
      let s1 := grantCapture g.geo { s with answers := rest }
      .next (finishCommand (scanRows s1.rowsLeft s1))
    else .refused .illFormedGeometry

/-- The whole life of a command that an idle engine takes (R25, R135; log 1). A busy engine does not take
it: it is held and nothing changes (R136; log 19). -/
def runCommand (k : Latch) (s : State) : Host.Outcome State Fault Refusal :=
  match s.phase with
  | .idle => runCaptured (acceptCommand k s)
  | .req | .scan | .rel => .next s

/-! ### The phase table, one move at a time -/

/-- Row `cy` or, where it has no column to visit, the first row after it that has one; the position is past
the last row where there is none (R139). The number is how many rows are left. -/
def seekRow : Nat → State → State
  | 0, s => s
  | n + 1, s =>
    let s1 := startRow s
    if s1.cx ≤ s1.xe then s1 else seekRow n (nextRow s1)

/-- `SCAN` if a pixel is left to visit, else `REL` (R135). -/
def choosePhase (s : State) : State := { s with phase := if s.cy < s.yend then .scan else .rel }

/-- R135, row `REQ` with `Grant(g)`, whole: the position is on the first visited pixel if there is one. -/
def enterScan (g : Geometry) (s : State) : State :=
  let s1 := grantCapture g s
  choosePhase (seekRow s1.rowsLeft s1)

/-- The next position of R139 after a pixel step. -/
def advance (s : State) : State :=
  let s1 := nextCol s
  if s1.cx ≤ s1.xe then s1
  else
    let s2 := nextRow s1
    seekRow s2.rowsLeft s2

/-- The position is a visible pixel of a row of the geometry and in the columns to visit (R16). -/
def State.positionOk (s : State) : Bool :=
  decide (0 ≤ s.cy ∧ s.cy < s.geo.height ∧
    (s.geo.row s.cy).minX ≤ s.cx ∧ s.cx ≤ s.xe ∧ s.xe ≤ (s.geo.row s.cy).maxX)

/-- One move of a busy engine: the rows `REQ`, `SCAN` and `REL` of R135. -/
def busyMove (s : State) : Host.Outcome State Fault Refusal :=
  match s.phase with
  | .idle => .next s
  | .req =>
    match s.answers with
    | [] => .next s
    | .deny :: rest => .next (denyCapture { s with answers := rest })
    | .grant g :: rest =>
      if g.ok s.cfg.format then .next (enterScan g.geo { s with answers := rest })
      else .refused .illFormedGeometry
  | .scan =>
    if s.held = false then .fault .captureNotHeld
    else if s.positionOk then .next (choosePhase (advance (pixelStep s)))
    else .fault .scanOutsideGeometry
  | .rel =>
    if s.held = false then .fault .captureNotHeld
    else .next (finishCommand s)

end Sys2Proof.Machine
end

