-- ==== Sys2Proof/Machine/Fill.lean ====
section
/-! DEFINITION. The meaning of `FILL` (spec 45_fill.md R155). -/

namespace Sys2Proof.Machine

/-- The latch of `FILL`: its word has `WILD = 0` and `FCOLOR = 0` (R56, R136). -/
def latchFill (rect : Rect) (col : Colour) : Latch :=
  { op := .fill, wild := false, fcolor := 0, col := col, rect := rect }

/-- R155: every pixel of the clipped rectangle becomes the quantized dithered value. -/
def execFill (rect : Rect) (col : Colour) (s : State) : Host.Outcome State Fault Refusal :=
  runCommand (latchFill rect col) s

end Sys2Proof.Machine
end

