-- ==== Sys2Proof/Machine/Replace.lean ====
section
/-! DEFINITION. The meanings of `REPLACE` and `REPLACE.ANY` (spec 46_replace.md R160, R161). -/

namespace Sys2Proof.Machine

/-- The latch of `REPLACE` (R136, R160). -/
def latchReplace (rect : Rect) (c : Byte) (col : Colour) : Latch :=
  { op := .replace, wild := false, fcolor := c, col := col, rect := rect }

/-- The latch of `REPLACE.ANY`: its word has `WILD = 1` and `FCOLOR = 0` (R56, R136). -/
def latchReplaceAny (rect : Rect) (col : Colour) : Latch :=
  { op := .replace, wild := true, fcolor := 0, col := col, rect := rect }

/-- R160: every pixel of the clipped rectangle that holds the filter colour becomes the quantized dithered
value. -/
def execReplace (rect : Rect) (c : Byte) (col : Colour) (s : State) : Host.Outcome State Fault Refusal :=
  runCommand (latchReplace rect c col) s

/-- R161: as `REPLACE` with a filter that every pixel matches. -/
def execReplaceAny (rect : Rect) (col : Colour) (s : State) : Host.Outcome State Fault Refusal :=
  runCommand (latchReplaceAny rect col) s

end Sys2Proof.Machine
end

