-- ==== Sys2Proof/Machine/Dispatch.lean ====
section
/-! DEFINITION. The meaning of each command, one arm a constructor. -/

namespace Sys2Proof.Machine

def exec (i : Instr) (s : State) : Host.Outcome State Fault Refusal :=
  match i with
  | .fill rect col => Sys2Proof.Machine.execFill rect col s
  | .replace rect c col => Sys2Proof.Machine.execReplace rect c col s
  | .replaceAny rect col => Sys2Proof.Machine.execReplaceAny rect col s

end Sys2Proof.Machine
end

