-- ==== Sys2Proof/WellFormed.lean ====
section
/-! DEFINITION. Which commands are legal for a pixel format (spec 30_encoding.md R56). Every value of
every other field is legal. -/

namespace Sys2Proof

/-- R56: in `MONO` the filter colour of a `REPLACE` is one bit, 0 or 1; nothing else is constrained. -/
def Instr.wf (fmt : Format) : Instr → Bool
  | .fill _ _ => true
  | .replace _ c _ =>
    match fmt with
    | .mono => c.toNat ≤ 1
    | .color => true
  | .replaceAny _ _ => true

end Sys2Proof
end

