-- ==== Sys2Proof/Decode.lean ====
section
/-! DEFINITION. The decoder of spec 30_encoding.md R59, total on any word and any byte list, which
rejects by name, and the encoder written from the same field table (R51). -/

namespace Sys2Proof

/-- Why a word spells no command: the exhaustive list of R57, and a byte image that is too short. -/
inductive Reject where
  /-- `OPCODE` is neither 0x01 nor 0x02. -/
  | opcode
  /-- Bits 15:9 are not zero. -/
  | rsv0
  /-- Bits 127:112 are not zero. -/
  | rsv1
  /-- `FILL` with `WILD = 1`. -/
  | fillWild
  /-- `FILL` with a non-zero `FCOLOR`. -/
  | fillFcolor
  /-- `REPLACE.ANY` with a non-zero `FCOLOR`. -/
  | anyFcolor
  /-- `REPLACE` in `MONO` with `FCOLOR >= 2`. -/
  | monoFcolor
  /-- Fewer than the 16 bytes of a command word. -/
  | short
  deriving DecidableEq, Repr

/-- The field of a command word that starts at bit `lo` and is `n` bits wide (R51). -/
def wordField (lo n : Nat) (w : CmdWord) : BitVec n := w.extractLsb' lo n

def fieldOpcode (w : CmdWord) : BitVec 8 := wordField 0 8 w
def fieldWild (w : CmdWord) : BitVec 1 := wordField 8 1 w
def fieldRsv0 (w : CmdWord) : BitVec 7 := wordField 9 7 w
def fieldFcolor (w : CmdWord) : Byte := wordField 16 8 w
def fieldRsv1 (w : CmdWord) : BitVec 16 := wordField 112 16 w

/-- `R`, `G` and `B` of a command word (R51). -/
def fieldColour (w : CmdWord) : Colour :=
  { r := wordField 24 8 w, g := wordField 32 8 w, b := wordField 40 8 w }

/-- `X`, `Y`, `W` and `H` of a command word (R51). -/
def fieldRect (w : CmdWord) : Rect :=
  { x := wordField 48 16 w, y := wordField 64 16 w, w := wordField 80 16 w, h := wordField 96 16 w }

/-- R59: the command a word spells for a pixel format, or why it spells none. -/
def decodeWord (fmt : Format) (w : CmdWord) : Except Reject Instr :=
  if fieldRsv0 w ≠ 0 then .error .rsv0
  else if fieldRsv1 w ≠ 0 then .error .rsv1
  else if fieldOpcode w = 0x01 then
    if fieldWild w ≠ 0 then .error .fillWild
    else if fieldFcolor w ≠ 0 then .error .fillFcolor
    else .ok (.fill (fieldRect w) (fieldColour w))
  else if fieldOpcode w = 0x02 then
    if fieldWild w = 1 then
      if fieldFcolor w ≠ 0 then .error .anyFcolor
      else .ok (.replaceAny (fieldRect w) (fieldColour w))
    else if fmt = .mono ∧ 2 ≤ (fieldFcolor w).toNat then .error .monoFcolor
    else .ok (.replace (fieldRect w) (fieldFcolor w) (fieldColour w))
  else .error .opcode

/-- The word with the given fields, most significant first: `RSV1`, `H`, `W`, `Y`, `X`, `B`, `G`, `R`,
`FCOLOR`, `RSV0`, `WILD`, `OPCODE` (R51). -/
def packWord (rect : Rect) (col : Colour) (fcolor : Byte) (wild : BitVec 1) (opcode : BitVec 8) : CmdWord :=
  (0 : BitVec 16) ++ rect.h ++ rect.w ++ rect.y ++ rect.x ++ col.b ++ col.g ++ col.r ++ fcolor
    ++ (0 : BitVec 7) ++ wild ++ opcode

/-- R59: the one word of a command, unused fields zero. -/
def encodeWord : Instr → CmdWord
  | .fill rect col => packWord rect col 0 0 0x01
  | .replace rect c col => packWord rect col c 0 0x02
  | .replaceAny rect col => packWord rect col 0 1 0x02

/-- R53: byte `i` of the 16-byte image of a word is bits `8i+7` to `8i`. -/
def wordBytes (w : CmdWord) : List Byte :=
  (List.range 16).map fun i => wordField (8 * i) 8 w

/-- The number whose bytes, least significant first, are the given ones. -/
def bytesToNat : List Byte → Nat
  | [] => 0
  | b :: rest => b.toNat + 256 * bytesToNat rest

/-- The word whose 16-byte image begins a byte list, and what follows it (R53). -/
def takeWord (bytes : List Byte) : Option (CmdWord × List Byte) :=
  if 16 ≤ bytes.length then some (BitVec.ofNat 128 (bytesToNat (bytes.take 16)), bytes.drop 16) else none

/-- Decoding from a byte transport: the command and the bytes that follow it (R53, R59). -/
def decode (fmt : Format) (bytes : List Byte) : Except Reject (Instr × List Byte) :=
  match takeWord bytes with
  | none => .error .short
  | some (w, rest) =>
    match decodeWord fmt w with
    | .error e => .error e
    | .ok i => .ok (i, rest)

/-- The byte image of a command (R53, R59). -/
def encode (i : Instr) : List Byte := wordBytes (encodeWord i)

/-- The command word whose low `nbits` bits are those of `w`, the bits above them zero. -/
def tableWord (nbits w : Nat) : CmdWord := BitVec.ofNat 128 (w % 2 ^ nbits)

/-- The instruction the decoder of the default build reads from the low `nbits` bits of `w`, bits above
them zero, laid out as R53 says. -/
def decodeTableWord (nbits w : Nat) : Option Instr :=
  match decode Machine.defaultFormat (wordBytes (tableWord nbits w)) with
  | .ok (i, _) => some i
  | .error _ => none

end Sys2Proof
end

