-- ==== Sys2Proof/Machine/Fetch.lean ====
section
/-! DEFINITION. What the machine does next: the `CMD` port and the host's other moves toward an idle
engine (spec 44_command_execution.md R135, R136; 70_reset_and_hazards.md R190, R206). -/

namespace Sys2Proof.Machine

/-- What a step does: run a command on the state in which its word has been taken, or end at once. -/
inductive Action where
  | run (i : Instr) (s : State)
  | ends (o : Host.Outcome State Fault Refusal)

/-- A word is taken from the `CMD` port; what the host presents after it stays there (R136). -/
def takeCommand (w : CmdWord) (rest : List HostMove) (s : State) : State :=
  emit (.take w) { s with host := rest }

/-- A word that spells no command: `Done()`, no capture request, no access (R57, R135, R173; log 12). -/
def rejectWord (w : CmdWord) (rest : List HostMove) (s : State) : State :=
  signalDone (takeCommand w rest s)

/-- R135 for an idle engine, and the host's moves toward one. With none to come the engine waits (R184). -/
def idleAction (s : State) : Action :=
  match s.host with
  | [] => .ends (.next s)
  | .command w :: rest =>
    match decodeWord s.cfg.format w with
    | .ok i => .run i (takeCommand w rest s)
    | .error _ => .ends (.next (rejectWord w rest s))
  | .store a v :: rest => .ends (.next { s with host := rest, mem := s.mem.write a v })
  | .reset :: rest => .ends (.next (resetEngine { s with host := rest }))

/-- An idle engine looks at the host's next move; a busy one makes the next move of its command and leaves
the host held (R136). -/
def nextAction (s : State) : Action :=
  match s.phase with
  | .idle => idleAction s
  | .req | .scan | .rel => .ends (busyMove s)

/-- One row of eight visible columns at address 0: the grant `placeCommand` supplies (log 18). -/
def smallGrant : Grant :=
  { geo := ⟨[{ base := 0, minX := 0, maxX := 7 }]⟩, storage := [{ base := 0, len := 8 }] }

/-- The state whose next step runs the command word `w`: the engine idle, the word first at the `CMD` port,
and an answer to its capture request ready (log 18). -/
def placeCommand (w : CmdWord) (s : State) : State :=
  { s with
    phase := .idle
    held := false
    host := .command w :: s.host
    answers := if s.answers = [] then [.grant smallGrant] else s.answers }

end Sys2Proof.Machine
end

