-- ==== Sys2Proof/Safety.lean ====
section
/-! DEFINITION. The terms in which claims speak of a run: the pixels a framebuffer shows, which of them a
command is about (spec 44_command_execution.md R146), the storage it may touch (20_memory.md R47), and
the invariants of the state (10_state.md R14, R15, R16). -/

namespace Sys2Proof

/-! ### A command's operands -/

/-- The requested rectangle of a command. -/
def Instr.rectOf : Instr → Rect
  | .fill rect _ => rect
  | .replace rect _ _ => rect
  | .replaceAny rect _ => rect

/-- The colour a command renders. -/
def Instr.colourOf : Instr → Colour
  | .fill _ col => col
  | .replace _ _ col => col
  | .replaceAny _ col => col

/-- The ten latch fields of a command (R13, R136). -/
def Instr.latchOf : Instr → Machine.Latch
  | .fill rect col => Machine.latchFill rect col
  | .replace rect c col => Machine.latchReplace rect c col
  | .replaceAny rect col => Machine.latchReplaceAny rect col

end Sys2Proof

namespace Sys2Proof.Machine

/-! ### Pixels -/

/-- Position `(x, y)` is a visible pixel of the geometry (R30). -/
def Geometry.Visible (g : Geometry) (x y : Int) : Prop :=
  0 ≤ y ∧ y < g.height ∧ (g.row y).minX ≤ x ∧ x ≤ (g.row y).maxX

/-- `fb(x, y)`: the pixel a memory shows at a position (R146). -/
def pixelAt (fmt : Format) (g : Geometry) (m : Memory) (x y : Int) : Pixel :=
  match fmt with
  | .mono => .bit ((m.read (g.addr .mono x y)).getLsbD (pixelBit x))
  | .color => .byte (m.read (g.addr .color x y))

/-- Bit `k` of the byte at address `a` belongs to the pixel at `(x, y)` (R34). -/
def Geometry.owns (fmt : Format) (g : Geometry) (x y : Int) (a k : Nat) : Prop :=
  match fmt with
  | .mono => g.addr .mono x y = a ∧ pixelBit x = k
  | .color => g.addr .color x y = a

/-- `InRect(k, g, x, y)` of R146. -/
def InRect (rect : Rect) (g : Geometry) (x y : Int) : Prop :=
  0 ≤ y ∧ y < g.height ∧ rect.y.toInt ≤ y ∧ y < rect.y.toInt + rect.h.toInt ∧
    (g.row y).minX ≤ x ∧ x ≤ (g.row y).maxX ∧ rect.x.toInt ≤ x ∧ x < rect.x.toInt + rect.w.toInt

/-- The packed representation of a filter colour (R162). -/
def packedFilter (fmt : Format) (c : Byte) : Pixel :=
  match fmt with
  | .mono => .bit (c.getLsbD 0)
  | .color => .byte c

end Sys2Proof.Machine

namespace Sys2Proof

/-- `Selected(k, p)` of R146. -/
def Instr.Selects (i : Instr) (fmt : Format) (p : Machine.Pixel) : Prop :=
  match i with
  | .fill _ _ => True
  | .replace _ c _ => p = Machine.packedFilter fmt c
  | .replaceAny _ _ => True

end Sys2Proof

namespace Sys2Proof.Machine

/-- R146, the granted case: what a command makes of a framebuffer. Inside the rectangle every selected
pixel is the quantized dithered value; every other visible pixel, and every bit that belongs to no
visible pixel, is as before. -/
structure BigStep (cfg : Config) (i : Instr) (g : Geometry) (m m' : Memory) : Prop where
  painted : ∀ x y, InRect i.rectOf g x y → i.Selects cfg.format (pixelAt cfg.format g m x y) →
    pixelAt cfg.format g m' x y = pixelFor cfg i.colourOf x y
  kept : ∀ x y, g.Visible x y →
    ¬ (InRect i.rectOf g x y ∧ i.Selects cfg.format (pixelAt cfg.format g m x y)) →
    pixelAt cfg.format g m' x y = pixelAt cfg.format g m x y
  outside : ∀ a k, k < 8 → (∀ x y, g.Visible x y → ¬ g.owns cfg.format x y a k) →
    (m'.read a).getLsbD k = (m.read a).getLsbD k

/-- Some pixel of the rectangle is selected by the command. -/
def SomePixelSelected (cfg : Config) (i : Instr) (g : Geometry) (m : Memory) : Prop :=
  ∃ x y, InRect i.rectOf g x y ∧ i.Selects cfg.format (pixelAt cfg.format g m x y)

/-! ### Running a command -/

/-- The engine is idle and the host's next answer is this grant, whose geometry is well formed (R35). -/
structure ReadyToGrant (s : State) (g : Grant) (rest : List Answer) : Prop where
  idle : s.phase = .idle
  answer : s.answers = .grant g :: rest
  wf : g.wf s.cfg.format

/-- The engine is idle and the host's next answer is `Deny`. -/
structure ReadyToDeny (s : State) (rest : List Answer) : Prop where
  idle : s.phase = .idle
  answer : s.answers = .deny :: rest

/-- The accesses at the `MEM` port among some events. -/
def Event.isAccess : Event → Bool
  | .memRead _ _ => true
  | .memWrite _ _ => true
  | _ => false

/-- The reads at the `MEM` port. -/
def Event.isRead : Event → Bool
  | .memRead _ _ => true
  | _ => false

/-- The writes at the `MEM` port. -/
def Event.isWrite : Event → Bool
  | .memWrite _ _ => true
  | _ => false

/-- The address an access is at. -/
def Event.address : Event → Option Nat
  | .memRead a _ => some a
  | .memWrite a _ => some a
  | _ => none

/-- A word taken from the `CMD` port. -/
def Event.isTake : Event → Bool
  | .take _ => true
  | _ => false

/-- A grant received at the `CAP` port. -/
def Event.isGrant : Event → Bool
  | .grant _ => true
  | _ => false

/-- A release issued. -/
def Event.isRelease : Event → Bool
  | .release => true
  | _ => false

/-- A completion signalled. -/
def Event.isDone : Event → Bool
  | .done => true
  | _ => false

/-! ### Invariants -/

/-- R139: some column is to be visited in row `y`. -/
abbrev RowHasPixel (k : Latch) (g : Geometry) (y : Int) : Prop :=
  (clipCols k.xInt k.wInt (g.row y)).1 ≤ (clipCols k.xInt k.wInt (g.row y)).2

/-- R139: the scan order. A position comes before another in a later row, or in the same row and to the right. -/
abbrev ScanBefore (p q : Int × Int) : Prop := p.2 < q.2 ∨ (p.2 = q.2 ∧ p.1 < q.1)

/-- R16: the scan registers while a pixel is due. The rows are those of the clipped rectangle (R102), and the
columns of the current row end where R103 says. -/
structure ScanInv (s : State) : Prop where
  row : 0 ≤ s.y0 ∧ s.y0 ≤ s.cy ∧ s.cy < s.yend ∧ s.yend ≤ s.geo.height
  col : (s.geo.row s.cy).minX ≤ s.cx ∧ s.cx ≤ s.xe ∧ s.xe ≤ (s.geo.row s.cy).maxX
  rows : clipRows s.cmd.yInt s.cmd.hInt s.geo.height = (s.y0, s.yend)
  cols : (clipCols s.cmd.xInt s.cmd.wInt (s.geo.row s.cy)).1 ≤ s.cx ∧
    (clipCols s.cmd.xInt s.cmd.wInt (s.geo.row s.cy)).2 = s.xe

/-- The invariant of the machine: the memory is in canonical form, the ROM is a permutation (R71), `HELD`
is 1 exactly in `SCAN` and `REL` (R15), a held geometry is well formed (R35(a), R35(c)), and the scan
registers are in range while a pixel is due (R16). -/
structure Inv (s : State) : Prop where
  mem : s.mem.wf
  rom : s.cfg.wf
  held : s.held = true ↔ (s.phase = .scan ∨ s.phase = .rel)
  geo : s.held = true → s.geo.columnsNonneg ∧ s.geo.cellsDistinct s.cfg.format
  scan : s.phase = .scan → ScanInv s

/-- R141 and R142 on the events so far: one release for each grant but the one held, and one completion
for each word taken but the one in execution. -/
structure TraceInv (s : State) : Prop where
  grants : (s.trace.filter Event.isGrant).length
    = (s.trace.filter Event.isRelease).length + (if s.held then 1 else 0)
  takes : (s.trace.filter Event.isTake).length
    = (s.trace.filter Event.isDone).length + (if s.phase = .idle then 0 else 1)

/-- The pixel step with the scan position put at `(x, y)`: one visit of a position (R139, R145). -/
def visit (s : State) (p : Int × Int) : State := pixelStep { s with cx := p.1, cy := p.2 }

/-- The visits of some positions, one after the other. -/
def visitAll (s : State) (ps : List (Int × Int)) : State := ps.foldl visit s

/-- The 64 positions of the 8x8 tile in column `i` and row `j` of tiles, tiles being anchored at the screen
origin (R70). -/
def tilePositions (i j : Int) : List (Int × Int) :=
  (List.range 64).map fun (n : Nat) => (8 * i + ((n % 8 : Nat) : Int), 8 * j + ((n / 8 : Nat) : Int))

end Sys2Proof.Machine
end

