-- ==== Sys2Proof/Certificates/Slice0/Obligations.lean ====
section
/-! DEFINITION. The statements for the provers. Each docstring names the rule of the spec it formalises. -/

open Sys2Proof Sys2Proof.Machine

/-! ### Encoding -/

/-- R62: the worked encodings, as words and as byte images, and the worked invalid words. -/
def Obligations.WorkedEncodingsDecode : Prop :=
  (∀ fmt : Format,
    decodeWord fmt 0x00000008000800000000808080000001 = .ok (.fill ⟨0, 0, 8, 8⟩ ⟨128, 128, 128⟩) ∧
    decodeWord fmt 0x00000008000800000000404040000001 = .ok (.fill ⟨0, 0, 8, 8⟩ ⟨64, 64, 64⟩) ∧
    decodeWord fmt 0x000000010005000200031E140A000102 = .ok (.replaceAny ⟨3, 2, 5, 1⟩ ⟨10, 20, 30⟩) ∧
    decodeWord fmt 0x00000008001000000000000000010002 = .ok (.replace ⟨0, 0, 16, 8⟩ 0x01 ⟨0, 0, 0⟩) ∧
    decodeWord fmt 0x00000000000000000000000000000000 = .error .opcode ∧
    decodeWord fmt 0x00000008000800000000808080000101 = .error .fillWild ∧
    decodeWord fmt 0x00000008000800000000808080FF0102 = .error .anyFcolor) ∧
  decodeWord .color 0x000000040014FFFFFFFE0080FFFF0002
    = .ok (.replace ⟨-2, -1, 20, 4⟩ 0xFF ⟨255, 128, 0⟩) ∧
  decodeWord .mono 0x00000008001000000000000000020002 = .error .monoFcolor ∧
  decodeWord .color 0x00000008001000000000000000020002 = .ok (.replace ⟨0, 0, 16, 8⟩ 0x02 ⟨0, 0, 0⟩) ∧
  wordBytes 0x00000008000800000000808080000001
    = [0x01, 0x00, 0x00, 0x80, 0x80, 0x80, 0x00, 0x00, 0x00, 0x00, 0x08, 0x00, 0x08, 0x00, 0x00, 0x00] ∧
  wordBytes 0x00000008000800000000404040000001
    = [0x01, 0x00, 0x00, 0x40, 0x40, 0x40, 0x00, 0x00, 0x00, 0x00, 0x08, 0x00, 0x08, 0x00, 0x00, 0x00] ∧
  wordBytes 0x000000040014FFFFFFFE0080FFFF0002
    = [0x02, 0x00, 0xFF, 0xFF, 0x80, 0x00, 0xFE, 0xFF, 0xFF, 0xFF, 0x14, 0x00, 0x04, 0x00, 0x00, 0x00] ∧
  wordBytes 0x000000010005000200031E140A000102
    = [0x02, 0x01, 0x00, 0x0A, 0x14, 0x1E, 0x03, 0x00, 0x02, 0x00, 0x05, 0x00, 0x01, 0x00, 0x00, 0x00] ∧
  wordBytes 0x00000008001000000000000000010002
    = [0x02, 0x00, 0x01, 0x00, 0x00, 0x00, 0x00, 0x00, 0x00, 0x00, 0x10, 0x00, 0x08, 0x00, 0x00, 0x00]

/-- R59: decoding the word of a command that is legal for the format gives the command back. -/
def Obligations.DecodeOfEncodeIsTheCommand : Prop :=
  ∀ (fmt : Format) (i : Instr), i.wf fmt = true → decodeWord fmt (encodeWord i) = .ok i

/-- R59: a word that decodes is the word of the command it decodes to, and that command is legal. -/
def Obligations.EncodeOfDecodeIsTheWord : Prop :=
  ∀ (fmt : Format) (w : CmdWord) (i : Instr), decodeWord fmt w = .ok i → encodeWord i = w ∧ i.wf fmt = true

/-- R57, the list: a word spells no command in exactly these cases. -/
def Obligations.InvalidWordsAreExactlyTheListed : Prop :=
  ∀ (fmt : Format) (w : CmdWord),
    (∃ e, decodeWord fmt w = .error e) ↔
      ((fieldOpcode w ≠ 0x01 ∧ fieldOpcode w ≠ 0x02) ∨ fieldRsv0 w ≠ 0 ∨ fieldRsv1 w ≠ 0 ∨
        (fieldOpcode w = 0x01 ∧ (fieldWild w = 1 ∨ fieldFcolor w ≠ 0)) ∨
        (fieldOpcode w = 0x02 ∧ fieldWild w = 1 ∧ fieldFcolor w ≠ 0) ∨
        (fmt = .mono ∧ fieldOpcode w = 0x02 ∧ fieldWild w = 0 ∧ 2 ≤ (fieldFcolor w).toNat))

/-- R54: the match and mask pairs of the opcode map select the commands the decoder gives; a `REPLACE` row
in `MONO` needs `FCOLOR <= 1` besides. -/
def Obligations.MatchAndMaskSelectTheCommands : Prop :=
  ∀ (fmt : Format) (w : CmdWord),
    ((∃ rect col, decodeWord fmt w = .ok (.fill rect col)) ↔
      w &&& 0xFFFF0000000000000000000000FFFFFF = 0x00000000000000000000000000000001) ∧
    ((∃ rect c col, decodeWord fmt w = .ok (.replace rect c col)) ↔
      w &&& 0xFFFF000000000000000000000000FFFF = 0x00000000000000000000000000000002 ∧
        (fmt = .mono → (fieldFcolor w).toNat ≤ 1)) ∧
    ((∃ rect col, decodeWord fmt w = .ok (.replaceAny rect col)) ↔
      w &&& 0xFFFF0000000000000000000000FFFFFF = 0x00000000000000000000000000000102)

/-- R53: a command read from a byte transport is the command of the word whose byte `i` is bits `8i+7` to
`8i`, and what follows the 16 bytes is left. -/
def Obligations.ByteTransportIsLeastSignificantFirst : Prop :=
  ∀ (fmt : Format) (w : CmdWord) (rest : List Byte),
    (wordBytes w).length = 16 ∧
    (∀ i b, i < 16 → b < 8 → ((wordBytes w).getD i 0).getLsbD b = w.getLsbD (8 * i + b)) ∧
    takeWord (wordBytes w ++ rest) = some (w, rest) ∧
    (∀ i, decodeWord fmt w = .ok i → decode fmt (wordBytes w ++ rest) = .ok (i, rest)) ∧
    (∀ e, decodeWord fmt w = .error e → decode fmt (wordBytes w ++ rest) = .error e)

/-! ### The threshold matrix -/

/-- R71(b) of the default build: the 64 thresholds are 0..63, each once. The table's values are the spec's
own presumption (R72, log 3). -/
def Obligations.DefaultMatrixIsAPermutation : Prop :=
  defaultConfig.wf ∧ ∀ t : BitVec 6, t ∈ defaultConfig.matrix.toList

/-- R74: the closed form of the default matrix, at every position (its values: R72, log 3). -/
def Obligations.DefaultMatrixHasTheClosedForm : Prop :=
  ∀ x y : Int,
    let c := (x % 8).toNat
    let r := (y % 8).toNat
    let d := c ^^^ r
    threshold defaultMatrix x y
      = 32 * (d % 2) + 16 * (r % 2) + 8 * (d / 2 % 2) + 4 * (r / 2 % 2) + 2 * (d / 4 % 2) + r / 4 % 2

/-- R76: the position properties of the default matrix (its values: R72, log 3). -/
def Obligations.DefaultMatrixPositionProperties : Prop :=
  (∀ x y : Int, threshold defaultMatrix x y < 32 ↔ (x + y) % 2 = 0) ∧
  (∀ x y : Int, threshold defaultMatrix x y < 16 ↔ x % 2 = 0 ∧ y % 2 = 0) ∧
  (∀ x y : Int, threshold defaultMatrix x y = 0 ↔ x % 8 = 0 ∧ y % 8 = 0) ∧
  (∀ x y : Int, threshold defaultMatrix x y = 63 ↔ x % 8 = 0 ∧ y % 8 = 7) ∧
  (∀ y : Int, ((List.range 8).filter fun n : Nat => threshold defaultMatrix n y < 32).length = 4) ∧
  (∀ x : Int, ((List.range 8).filter fun n : Nat => threshold defaultMatrix x n < 32).length = 4)

/-- R70: the lookup returns one entry of the table, the one in row `y mod 8` and column `x mod 8` (R73); it is
a function of `(x mod 8, y mod 8)` alone, so tiled by 8 in both directions from the screen origin, for any
matrix. -/
def Obligations.ThresholdIsTiledByEight : Prop :=
  ∀ (m : Matrix) (x y : Int),
    (∃ r c : Nat, r < 8 ∧ c < 8 ∧ (r : Int) = y % 8 ∧ (c : Int) = x % 8 ∧
      threshold m x y = (m.toList.getD (8 * r + c) 0).toNat) ∧
    (∀ x' y' : Int, x' % 8 = x % 8 → y' % 8 = y % 8 → threshold m x' y' = threshold m x y) ∧
    ∀ i j : Int, threshold m (x + 8 * i) (y + 8 * j) = threshold m x y

/-! ### The quantizer -/

/-- R82: the ranges of the quantizer's quantities, with the output's case distinction. -/
def Obligations.QuantizerRangesAndCases : Prop :=
  ∀ v t bw top : Nat, v ≤ 255 → t ≤ 63 → bw = 64 ∨ bw = 128 ∨ bw = 256 → top = 1 ∨ top = 3 →
    v / bw ≤ 256 / bw - 1 ∧ v % bw ≤ bw - 1 ∧ scaled v bw = v % bw * 64 / bw ∧ scaled v bw ≤ 63 ∧
      (if t < scaled v bw then v / bw + 1 else v / bw) ≤ 256 / bw ∧ quantize v t bw top ≤ top ∧
      (t < scaled v bw → quantize v t bw top = min (v / bw + 1) top) ∧
      (scaled v bw ≤ t → quantize v t bw top = min (v / bw) top)

/-- R83: for the admitted bandwidths the quantizer's quantities are bit fields of the input. -/
def Obligations.QuantizerIsBitSelection : Prop :=
  ∀ v : Byte,
    (v.toNat / 64 = (v.extractLsb' 6 2).toNat ∧ scaled v.toNat 64 = (v.extractLsb' 0 6).toNat) ∧
    (v.toNat / 128 = (v.extractLsb' 7 1).toNat ∧ scaled v.toNat 128 = (v.extractLsb' 1 6).toNat) ∧
    (v.toNat / 256 = 0 ∧ scaled v.toNat 256 = (v.extractLsb' 2 6).toNat)

/-- R85: the colour quantizer, simplified, and its four consequences. -/
def Obligations.ColourQuantizerSimplified : Prop :=
  ∀ v t : Nat, v ≤ 255 → t ≤ 63 →
    quantize v t 64 3 = min 3 (v / 64 + if t < v % 64 then 1 else 0) ∧
    (v = 0 → quantize v t 64 3 = 0) ∧
    (192 ≤ v → quantize v t 64 3 = 3) ∧
    (∀ k, k ≤ 3 → v = 64 * k → quantize v t 64 3 = k) ∧
    (1 ≤ v → v ≤ 191 → v % 64 ≠ 0 → quantize v t 64 3 = if t < v % 64 then v / 64 + 1 else v / 64)

/-- R87: the monochrome quantizer under both admitted bandwidths. -/
def Obligations.MonochromeQuantizerSimplified : Prop :=
  ∀ (cfg : Config) (col : Colour) (x y : Int),
    (cfg.bwMono = .bw128 →
      (pixelMono cfg col x y = true ↔ 128 ≤ luma col ∨ threshold cfg.matrix x y < luma col / 2)) ∧
    (cfg.bwMono = .bw256 →
      (pixelMono cfg col x y = true ↔ threshold cfg.matrix x y < luma col / 4))

/-- R84, with the fields of R33: the stored colour byte is the marker 11 and the three levels, each channel
quantized with the position's one threshold; it lies in `0xC0` to `0xFF`. -/
def Obligations.ColourByteHoldsTheLevels : Prop :=
  ∀ (cfg : Config) (col : Colour) (x y : Int),
    let p := (pixelColor cfg col x y).toNat
    let t := threshold cfg.matrix x y
    p = 0xC0 + 16 * quantize col.r.toNat t 64 3 + 4 * quantize col.g.toNat t 64 3 + quantize col.b.toNat t 64 3 ∧
      0xC0 ≤ p ∧ p ≤ 0xFF ∧ p / 64 = 3 ∧ p / 16 % 4 = quantize col.r.toNat t 64 3 ∧
      p / 4 % 4 = quantize col.g.toNat t 64 3 ∧ p % 4 = quantize col.b.toNat t 64 3

/-- R86: the luminance is the weighted sum over eight, rounded down, stays in the channel's range and keeps
greys; the monochrome pixel is its quantized level. -/
def Obligations.LuminanceRangeAndGreys : Prop :=
  (∀ (cfg : Config) (col : Colour) (x y : Int),
    (if pixelMono cfg col x y then 1 else 0)
      = quantize (luma col) (threshold cfg.matrix x y) (bandwidth cfg.bwMono) 1) ∧
  (∀ col : Colour, 3 * col.r.toNat + 4 * col.g.toNat + col.b.toNat ≤ 2040) ∧
  (∀ col : Colour, luma col ≤ 255 ∧
    8 * luma col ≤ 3 * col.r.toNat + 4 * col.g.toNat + col.b.toNat ∧
    3 * col.r.toNat + 4 * col.g.toNat + col.b.toNat < 8 * luma col + 8) ∧
  (∀ v : Byte, luma ⟨v, v, v⟩ = v.toNat) ∧ luma ⟨255, 255, 255⟩ = 255 ∧ luma ⟨0, 0, 0⟩ = 0

/-- R91: the quantizer is monotone in the input and antitone in the threshold; the luminance is monotone
in each channel. -/
def Obligations.QuantizerIsMonotone : Prop :=
  (∀ v v' t bw top : Nat, bw = 64 ∨ bw = 128 ∨ bw = 256 → v ≤ v' → quantize v t bw top ≤ quantize v' t bw top) ∧
  (∀ v t t' bw top : Nat, t ≤ t' → quantize v t' bw top ≤ quantize v t bw top) ∧
  (∀ c c' : Colour, c.r.toNat ≤ c'.r.toNat → c.g.toNat ≤ c'.g.toNat → c.b.toNat ≤ c'.b.toNat → luma c ≤ luma c')

/-- R90: in every tile, for any matrix that is a permutation, exactly `scaled` pixels are promoted. -/
def Obligations.TilePromotesScaledManyPixels : Prop :=
  ∀ (cfg : Config) (v bw : Nat) (i j : Int), cfg.wf → bw = 64 ∨ bw = 128 ∨ bw = 256 →
    ((tilePositions i j).filter fun p => threshold cfg.matrix p.1 p.2 < scaled v bw).length = scaled v bw

/-! ### Clipping -/

/-- R102: the two adjustments in their order; and the clipped rows are the intersection of the requested rows
with those that exist, which the rule itself marks as derived ("[derived: by cases `y < 0` and `y >= 0`]"). -/
def Obligations.RowClippingIsIntersection : Prop :=
  ∀ y h height : Int, 0 ≤ height →
    (∀ y0 hh hh' : Int, (y < 0 → y0 = 0 ∧ hh = h + y) → (0 ≤ y → y0 = y ∧ hh = h) →
      (height < y0 + hh → hh' = height - y0) → (y0 + hh ≤ height → hh' = hh) →
      clipRows y h height = (y0, y0 + hh')) ∧
    clipRows y h height = (max y 0, min (y + h) height) ∧
    ((clipRows y h height).1 < (clipRows y h height).2 →
      0 ≤ (clipRows y h height).1 ∧ (clipRows y h height).2 ≤ height) ∧
    (h ≤ 0 ∨ height ≤ y ∨ y + h ≤ 0 ∨ height = 0 → (clipRows y h height).2 ≤ (clipRows y h height).1)

/-- R106: the positions of the row and column ranges are those of the requested rectangle that are visible,
and their columns are not negative. -/
def Obligations.ClippedPositionsAreTheVisibleRequested : Prop :=
  ∀ (k : Latch) (g : Geometry) (cx cy : Int), g.columnsNonneg →
    ((clipRows k.yInt k.hInt g.height).1 ≤ cy ∧ cy < (clipRows k.yInt k.hInt g.height).2 ∧
        (clipCols k.xInt k.wInt (g.row cy)).1 ≤ cx ∧ cx ≤ (clipCols k.xInt k.wInt (g.row cy)).2 ↔
      g.Visible cx cy ∧ k.yInt ≤ cy ∧ cy < k.yInt + k.hInt ∧ k.xInt ≤ cx ∧ cx < k.xInt + k.wInt) ∧
    (g.Visible cx cy → 0 ≤ cx)

/-- R105: with 16-bit fields the clipping sums keep to their ranges, and the clipped ends are the smaller of
the exact sums and the grant's bounds: nothing wraps or is truncated. -/
def Obligations.ClippingSumsDoNotWrap : Prop :=
  ∀ (k : Latch) (r : RowGeo) (height : Int),
    (-65536 ≤ k.yInt + k.hInt ∧ k.yInt + k.hInt ≤ 65534) ∧
    (-65537 ≤ k.xInt + k.wInt - 1 ∧ k.xInt + k.wInt - 1 ≤ 65533) ∧
    (clipRows k.yInt k.hInt height).2 = min (k.yInt + k.hInt) height ∧
    (clipCols k.xInt k.wInt r).2 = min (k.xInt + k.wInt - 1) r.maxX

/-! ### The framebuffer writer -/

/-- R121: the bit store replaces one bit of the byte read in the same step and keeps the other seven; the
write is issued whatever the byte was (R125). -/
def Obligations.BitStoreReplacesOneBit : Prop :=
  ∀ (s : State) (q : Bool), s.mem.wf →
    (loadPixelMono s).2.1 = s.mem.read s.curAddr ∧ (loadPixelMono s).2.2.mem = s.mem ∧
    let old := s.mem.read s.curAddr
    let t := storeBitMono old q s
    (∀ b, b < 8 → (t.mem.read s.curAddr).getLsbD b = if b = pixelBit s.cx then q else old.getLsbD b) ∧
    (∀ a, a ≠ s.curAddr → t.mem.read a = s.mem.read a) ∧
    t.trace = s.trace ++ [.memWrite s.curAddr (t.mem.read s.curAddr)]

/-- R38: the accesses of a pixel step, by operation and format. -/
def Obligations.PixelStepAccesses : Prop :=
  ∀ s : State,
    (s.cmd.op = .fill → s.cfg.format = .color →
      (pixelStep s).trace = s.trace ++ [.memWrite s.curAddr s.curColor]) ∧
    (s.cmd.op = .fill → s.cfg.format = .mono →
      (pixelStep s).trace = s.trace ++ [.memRead s.curAddr (s.mem.read s.curAddr),
        .memWrite s.curAddr (setbit (s.mem.read s.curAddr) (pixelBit s.cx) s.curMono)]) ∧
    (s.cmd.op = .replace → s.cfg.format = .color →
      (pixelStep s).trace = s.trace ++ ([.memRead s.curAddr (s.mem.read s.curAddr)] ++
        if s.cmd.wild = true ∨ s.mem.read s.curAddr = s.cmd.fcolor
        then [.memWrite s.curAddr s.curColor] else [])) ∧
    (s.cmd.op = .replace → s.cfg.format = .mono →
      (pixelStep s).trace = s.trace ++ ([.memRead s.curAddr (s.mem.read s.curAddr)] ++
        if s.cmd.wild = true ∨ (s.mem.read s.curAddr).getLsbD (pixelBit s.cx) = s.cmd.fcolor.getLsbD 0
        then [.memWrite s.curAddr (setbit (s.mem.read s.curAddr) (pixelBit s.cx) s.curMono)] else []))

/-- R126: a pixel step changes at most the pixel at the scan position: every bit it does not own, and every
other visible pixel, is as before. -/
def Obligations.PixelStepChangesOnlyItsPixel : Prop :=
  ∀ s : State, s.mem.wf →
    (∀ a k, k < 8 → ¬ s.geo.owns s.cfg.format s.cx s.cy a k →
      ((pixelStep s).mem.read a).getLsbD k = (s.mem.read a).getLsbD k) ∧
    (∀ a, a ≠ s.curAddr → (pixelStep s).mem.read a = s.mem.read a) ∧
    (∀ x y, s.geo.columnsNonneg → s.geo.cellsDistinct s.cfg.format → s.geo.Visible s.cx s.cy →
      s.geo.Visible x y → (x, y) ≠ (s.cx, s.cy) →
      pixelAt s.cfg.format s.geo (pixelStep s).mem x y = pixelAt s.cfg.format s.geo s.mem x y)

/-- R145: visiting the same positions in another order leaves the same framebuffer. -/
def Obligations.ScanOrderDoesNotMatter : Prop :=
  ∀ (s : State) (ps qs : List (Int × Int)), s.mem.wf → s.geo.columnsNonneg → s.geo.cellsDistinct s.cfg.format →
    (∀ p ∈ ps, s.geo.Visible p.1 p.2) → ps.Nodup → ps.Perm qs →
    (visitAll s ps).mem = (visitAll s qs).mem

/-! ### Commands -/

/-- R155: `FILL`. Granted, it paints every pixel of the clipped rectangle and no other, releases and
completes; denied, it makes no access and completes. What the latch and `geo` hold afterwards is the model's
choice (log 16). -/
def Obligations.FillPaintsTheClippedRectangle : Prop :=
  ∀ (rect : Rect) (col : Colour) (s : State), s.phase = .idle → s.mem.wf →
    (∀ g rest, s.answers = .grant g :: rest → g.wf s.cfg.format →
      ∃ t evs, exec (.fill rect col) s = .next t ∧ t.phase = .idle ∧ t.held = false ∧
        t.cmd = ⟨.fill, false, 0, col, rect⟩ ∧ t.geo = g.geo ∧
        t.cfg = s.cfg ∧ t.host = s.host ∧ t.answers = rest ∧
        (∀ x y, InRect rect g.geo x y → pixelAt s.cfg.format g.geo t.mem x y = pixelFor s.cfg col x y) ∧
        (∀ x y, g.geo.Visible x y → ¬ InRect rect g.geo x y →
          pixelAt s.cfg.format g.geo t.mem x y = pixelAt s.cfg.format g.geo s.mem x y) ∧
        t.trace = s.trace ++ ([.captureRequest, .grant g.geo] ++ evs ++ [.release, .done]) ∧
        ∀ e ∈ evs, e.isAccess = true) ∧
    (∀ rest, s.answers = .deny :: rest →
      ∃ t, exec (.fill rect col) s = .next t ∧ t.mem = s.mem ∧ t.phase = .idle ∧ t.answers = rest ∧
        t.trace = s.trace ++ [.captureRequest, .deny, .done])

/-- R160: `REPLACE`. Granted, it paints the pixels of the clipped rectangle that hold the filter colour and
no other, releases and completes; denied, it makes no access and completes. What the latch and `geo` hold
afterwards is the model's choice (log 16). In `MONO` a filter of 2 or more, which no valid word has (R56), is
compared by its bit 0: the model's reading (log 23). -/
def Obligations.ReplaceRecoloursTheMatchingPixels : Prop :=
  ∀ (rect : Rect) (c : Byte) (col : Colour) (s : State), s.phase = .idle → s.mem.wf →
    (∀ g rest, s.answers = .grant g :: rest → g.wf s.cfg.format →
      ∃ t evs, exec (.replace rect c col) s = .next t ∧ t.phase = .idle ∧ t.held = false ∧
        t.cmd = ⟨.replace, false, c, col, rect⟩ ∧ t.geo = g.geo ∧
        t.cfg = s.cfg ∧ t.host = s.host ∧ t.answers = rest ∧
        (∀ x y, InRect rect g.geo x y →
          pixelAt s.cfg.format g.geo s.mem x y = packedFilter s.cfg.format c →
          pixelAt s.cfg.format g.geo t.mem x y = pixelFor s.cfg col x y) ∧
        (∀ x y, g.geo.Visible x y →
          ¬ (InRect rect g.geo x y ∧ pixelAt s.cfg.format g.geo s.mem x y = packedFilter s.cfg.format c) →
          pixelAt s.cfg.format g.geo t.mem x y = pixelAt s.cfg.format g.geo s.mem x y) ∧
        t.trace = s.trace ++ ([.captureRequest, .grant g.geo] ++ evs ++ [.release, .done]) ∧
        ∀ e ∈ evs, e.isAccess = true) ∧
    (∀ rest, s.answers = .deny :: rest →
      ∃ t, exec (.replace rect c col) s = .next t ∧ t.mem = s.mem ∧ t.phase = .idle ∧ t.answers = rest ∧
        t.trace = s.trace ++ [.captureRequest, .deny, .done])

/-- R161: `REPLACE.ANY`. Granted, it paints every pixel of the clipped rectangle and no other, releases and
completes; denied, it makes no access and completes. What the latch and `geo` hold afterwards is the model's
choice (log 16). -/
def Obligations.ReplaceAnyPaintsTheClippedRectangle : Prop :=
  ∀ (rect : Rect) (col : Colour) (s : State), s.phase = .idle → s.mem.wf →
    (∀ g rest, s.answers = .grant g :: rest → g.wf s.cfg.format →
      ∃ t evs, exec (.replaceAny rect col) s = .next t ∧ t.phase = .idle ∧ t.held = false ∧
        t.cmd = ⟨.replace, true, 0, col, rect⟩ ∧ t.geo = g.geo ∧
        t.cfg = s.cfg ∧ t.host = s.host ∧ t.answers = rest ∧
        (∀ x y, InRect rect g.geo x y → pixelAt s.cfg.format g.geo t.mem x y = pixelFor s.cfg col x y) ∧
        (∀ x y, g.geo.Visible x y → ¬ InRect rect g.geo x y →
          pixelAt s.cfg.format g.geo t.mem x y = pixelAt s.cfg.format g.geo s.mem x y) ∧
        t.trace = s.trace ++ ([.captureRequest, .grant g.geo] ++ evs ++ [.release, .done]) ∧
        ∀ e ∈ evs, e.isAccess = true) ∧
    (∀ rest, s.answers = .deny :: rest →
      ∃ t, exec (.replaceAny rect col) s = .next t ∧ t.mem = s.mem ∧ t.phase = .idle ∧ t.answers = rest ∧
        t.trace = s.trace ++ [.captureRequest, .deny, .done])

/-- R146: every command is the big-step function of its fields, the answer and the framebuffer; bits that
belong to no visible position are unchanged; an invalid word changes nothing (log 12). For a command that no
valid word has, a `MONO` `REPLACE` with a filter of 2 or more, this is the model's reading (log 23). -/
def Obligations.CommandIsTheBigStepFunction : Prop :=
  (∀ (i : Instr) (s : State) (g : Grant) (rest : List Answer), ReadyToGrant s g rest → s.mem.wf →
    ∃ t, exec i s = .next t ∧ BigStep s.cfg i g.geo s.mem t.mem) ∧
  (∀ (i : Instr) (s : State) (rest : List Answer), ReadyToDeny s rest → ∃ t, exec i s = .next t ∧ t.mem = s.mem) ∧
  (∀ (s t : State) (w : CmdWord) (rest : List HostMove) (e : Reject), s.phase = .idle →
    s.host = .command w :: rest → decodeWord s.cfg.format w = .error e → step s = .next t → t.mem = s.mem)

/-- R138: a denied command makes no access and no release, and completes. That the latch, `geo` and the scan
registers keep what they hold after `Done` is the model's choice (log 16). -/
def Obligations.DeniedCommandIsSkipped : Prop :=
  ∀ (i : Instr) (s : State) (rest : List Answer), ReadyToDeny s rest →
    exec i s = .next
      { s with
        cmd := i.latchOf
        answers := rest
        trace := s.trace ++ [.captureRequest] ++ [.deny] ++ [.done] }

/-- R172, R107: a granted command whose clipped rectangle is empty makes no access, releases and completes. -/
def Obligations.EmptyRectangleTouchesNothing : Prop :=
  ∀ (i : Instr) (s : State) (g : Grant) (rest : List Answer), ReadyToGrant s g rest →
    (∀ x y, ¬ InRect i.rectOf g.geo x y) →
    ∃ t, exec i s = .next t ∧ t.mem = s.mem ∧ t.phase = .idle ∧ t.held = false ∧ t.answers = rest ∧
      t.trace = s.trace ++ [.captureRequest, .grant g.geo, .release, .done]

/-- R137, R197: with no answer to come, the command is latched, the capture is requested, and the engine
waits in `REQ`, step after step. That waiting is a step to the same state is the model's choice (log 11). -/
def Obligations.UnansweredRequestWaits : Prop :=
  ∀ (i : Instr) (s : State), s.phase = .idle → s.answers = [] →
    exec i s = .next { s with cmd := i.latchOf, phase := .req, trace := s.trace ++ [.captureRequest] } ∧
    ∀ n, Host.Core.run core n { s with cmd := i.latchOf, phase := .req, trace := s.trace ++ [.captureRequest] }
      = .next { s with cmd := i.latchOf, phase := .req, trace := s.trace ++ [.captureRequest] }

/-- R147: the events of one command word: those of an invalid word, of a denied command, or of a granted
command. The accesses between grant and release are those of one pixel step at each position of the clipped
rectangle, in scan order (R139), and `MEM` events only. That the events are recorded, and that an invalid word
is answered and not refused, is the model's choice (logs 14, 12). -/
def Obligations.EventsOfOneCommandWord : Prop :=
  ∀ (s t : State) (w : CmdWord) (rest : List HostMove), s.phase = .idle → s.host = .command w :: rest →
    step s = .next t → t.phase = .idle →
    (∃ e, decodeWord s.cfg.format w = .error e ∧ t.trace = s.trace ++ [.take w, .done]) ∨
    (∃ i as, decodeWord s.cfg.format w = .ok i ∧ s.answers = .deny :: as ∧
      t.trace = s.trace ++ [.take w, .captureRequest, .deny, .done]) ∨
    (∃ (i : Instr) (g : Grant) (as : List Answer) (ps : List (Int × Int)) (evs : List Event),
      decodeWord s.cfg.format w = .ok i ∧ s.answers = .grant g :: as ∧
      t.trace = s.trace ++ ([.take w, .captureRequest, .grant g.geo] ++ evs ++ [.release, .done]) ∧
      (∀ e ∈ evs, e.isAccess = true) ∧
      ps.Pairwise ScanBefore ∧ (∀ p, p ∈ ps ↔ InRect i.rectOf g.geo p.1 p.2) ∧
      ∀ u : State, u.cfg = s.cfg → u.cmd = i.latchOf → u.geo = g.geo → u.mem = s.mem →
        (visitAll u ps).trace = u.trace ++ evs ∧ (visitAll u ps).mem = t.mem)

/-- R47: every byte a granted command reads or writes is the byte of a visible position of the requested
rectangle and lies in the storage handed over; every other byte is as before, and so is every bit of an
accessed byte that belongs to no position of the rectangle. -/
def Obligations.CommandStaysInsideTheGrantedStorage : Prop :=
  ∀ (i : Instr) (s : State) (g : Grant) (rest : List Answer), ReadyToGrant s g rest → s.mem.wf →
    ∃ t evs, exec i s = .next t ∧
      t.trace = s.trace ++ ([.captureRequest, .grant g.geo] ++ evs ++ [.release, .done]) ∧
      (∀ e ∈ evs, ∃ a, e.address = some a ∧ inStorage g.storage a ∧
        ∃ x y, InRect i.rectOf g.geo x y ∧ g.geo.Visible x y ∧ g.geo.addr s.cfg.format x y = a) ∧
      (∀ a, ¬ inStorage g.storage a → t.mem.read a = s.mem.read a) ∧
      (∀ a k, k < 8 → (∀ x y, InRect i.rectOf g.geo x y → ¬ g.geo.owns s.cfg.format x y a k) →
        (t.mem.read a).getLsbD k = (s.mem.read a).getLsbD k)

/-- The frame of the three commands, in every state: the build and the host's moves never change; a busy
engine changes nothing (the model's choice, log 19, as is what dead registers keep, log 16); without a grant
no register but the latch and the phase changes, and no byte; with one, no byte changes but those at the
address of a visible position of the requested rectangle. -/
def Obligations.FrameOfTheCommands : Prop :=
  ∀ (i : Instr) (s t : State), exec i s = .next t →
    t.cfg = s.cfg ∧ t.host = s.host ∧
    (s.phase ≠ .idle → t = s) ∧
    ((∀ g rest, s.answers ≠ .grant g :: rest) →
      t.held = s.held ∧ t.geo = s.geo ∧ t.y0 = s.y0 ∧ t.yend = s.yend ∧ t.cy = s.cy ∧ t.cx = s.cx ∧
        t.xe = s.xe ∧ t.mem = s.mem) ∧
    (∀ g rest, s.answers = .grant g :: rest → s.phase = .idle →
      t.cmd = i.latchOf ∧ t.geo = g.geo ∧ t.held = false ∧ t.answers = rest ∧
      ∀ a, (∀ x y, InRect i.rectOf g.geo x y → g.geo.addr s.cfg.format x y ≠ a) → t.mem.read a = s.mem.read a)

/-- R157, R166: `FILL` and `REPLACE.ANY` with the same rectangle and colour leave the same framebuffer, for
every host answer and framebuffer; a busy engine takes neither (log 19). -/
def Obligations.FillEqualsWildcardReplace : Prop :=
  ∀ (rect : Rect) (col : Colour) (s : State),
    (∀ t, exec (.fill rect col) s = .next t → ∃ u, exec (.replaceAny rect col) s = .next u ∧ u.mem = t.mem) ∧
    (∀ u, exec (.replaceAny rect col) s = .next u → ∃ t, exec (.fill rect col) s = .next t ∧ u.mem = t.mem)

/-- R156: `FILL` does not depend on the stored pixels, and is idempotent. -/
def Obligations.FillIgnoresOldPixelsAndIsIdempotent : Prop :=
  ∀ (rect : Rect) (col : Colour) (s : State) (g : Grant) (rest : List Answer),
    ReadyToGrant s g rest → s.mem.wf →
    ∃ t, exec (.fill rect col) s = .next t ∧
      (∀ m : Memory, m.wf → ∃ u, exec (.fill rect col) { s with mem := m } = .next u ∧
        (∀ x y, InRect rect g.geo x y →
          pixelAt s.cfg.format g.geo u.mem x y = pixelAt s.cfg.format g.geo t.mem x y) ∧
        (∀ x y, g.geo.Visible x y → ¬ InRect rect g.geo x y →
          pixelAt s.cfg.format g.geo u.mem x y = pixelAt s.cfg.format g.geo m x y)) ∧
      (∀ as, ∃ u, exec (.fill rect col) { t with answers := .grant g :: as } = .next u ∧ u.mem = t.mem)

/-- R165: a `REPLACE` that no visited pixel matches writes nothing; and one that some match leaves every
non-matching pixel and every pixel outside the rectangle as it was. In `MONO` a filter of 2 or more, which no
valid word has (R56), is compared by its bit 0: the model's reading (log 23). -/
def Obligations.ReplaceWithoutMatchChangesNothing : Prop :=
  ∀ (rect : Rect) (c : Byte) (col : Colour) (s : State) (g : Grant) (rest : List Answer),
    ReadyToGrant s g rest → s.mem.wf →
    ∃ t, exec (.replace rect c col) s = .next t ∧
      (¬ SomePixelSelected s.cfg (.replace rect c col) g.geo s.mem → t.mem = s.mem) ∧
      (∀ x y, g.geo.Visible x y →
        (¬ InRect rect g.geo x y ∨ pixelAt s.cfg.format g.geo s.mem x y ≠ packedFilter s.cfg.format c) →
        pixelAt s.cfg.format g.geo t.mem x y = pixelAt s.cfg.format g.geo s.mem x y)

/-- R38, R155 ("No read-before-write"): in `COLOR` a `FILL` reads no byte. -/
def Obligations.ColourFillNeverReads : Prop :=
  ∀ (rect : Rect) (col : Colour) (s : State) (g : Grant) (rest : List Answer),
    ReadyToGrant s g rest → s.cfg.format = .color →
    ∃ t evs, exec (.fill rect col) s = .next t ∧ t.trace = s.trace ++ evs ∧ ∀ e ∈ evs, e.isRead = false

/-- R167: in `COLOR` a `REPLACE` reads each byte of the clipped rectangle exactly once. -/
def Obligations.ColourReplaceReadsEachByteOnce : Prop :=
  ∀ (rect : Rect) (c : Byte) (col : Colour) (s : State) (g : Grant) (rest : List Answer),
    ReadyToGrant s g rest → s.cfg.format = .color →
    ∃ t evs, exec (.replace rect c col) s = .next t ∧ t.trace = s.trace ++ evs ∧
      ((evs.filter Event.isRead).filterMap Event.address).Nodup ∧
      ∀ x y, InRect rect g.geo x y → g.geo.addr .color x y ∈ (evs.filter Event.isRead).filterMap Event.address

/-- R158, R90: after a monochrome `FILL` whose luminance lies in the first band, every tile that lies wholly
in the clipped rectangle has exactly `scaled` pixels on, for any matrix that is a permutation. -/
def Obligations.FilledTileHasScaledManyPixelsOn : Prop :=
  ∀ (rect : Rect) (col : Colour) (s : State) (g : Grant) (rest : List Answer) (i j : Int),
    ReadyToGrant s g rest → s.mem.wf → s.cfg.wf → s.cfg.format = .mono → luma col < bandwidth s.cfg.bwMono →
    (∀ p ∈ tilePositions i j, InRect rect g.geo p.1 p.2) →
    ∃ t, exec (.fill rect col) s = .next t ∧
      ((tilePositions i j).filter fun p => pixelAt .mono g.geo t.mem p.1 p.2 = .bit true).length
        = scaled (luma col) (bandwidth s.cfg.bwMono)

/-- R24: a command's effect depends only on the command, its own answer, the build and the framebuffer: two
idle engines that agree on those do the same, whatever their latches, geometries and scan registers hold. -/
def Obligations.NothingIsCarriedBetweenCommands : Prop :=
  ∀ (i : Instr) (s u t : State), s.phase = .idle → u.phase = .idle → u.cfg = s.cfg → u.mem = s.mem →
    u.answers = s.answers → exec i s = .next t →
    ∃ v evs, exec i u = .next v ∧ v.mem = t.mem ∧ v.phase = t.phase ∧ v.cmd = t.cmd ∧ v.answers = t.answers ∧
      t.trace = s.trace ++ evs ∧ v.trace = u.trace ++ evs

/-! ### The machine -/

/-- A step runs the decoded command: an idle engine takes the word the host presents and runs it on the
state in which the word is gone from the port (R135, R136). That the whole command is one step is the model's
choice among those R25 allows (log 1). -/
def Obligations.StepRunsTheDecodedCommand : Prop :=
  ∀ (s : State) (w : CmdWord) (rest : List HostMove) (i : Instr), s.phase = .idle →
    s.host = .command w :: rest → decodeWord s.cfg.format w = .ok i →
    step s = exec i { s with host := rest, trace := s.trace ++ [.take w] }

/-- R57, R173: an invalid word is taken and answered with `Done`, with no capture request, no access and no
change to the engine. That the model gives it this effect, where U1 also lets a model refuse it, is its choice
(log 12). -/
def Obligations.InvalidWordIsTakenAndIgnored : Prop :=
  ∀ (s : State) (w : CmdWord) (rest : List HostMove) (e : Reject), s.phase = .idle →
    s.host = .command w :: rest → decodeWord s.cfg.format w = .error e →
    step s = .next { s with host := rest, trace := s.trace ++ [.take w] ++ [.done] }

/-- R17, R18, R136, R143: `BUSY` is 1 exactly while a command is in execution. Then the host is held: its
moves stay where they are and have no influence on the step, and no other command is taken. The form of the
port is the model's (logs 9, 19). -/
def Obligations.BusyEngineHoldsTheHost : Prop :=
  ∀ s : State,
    (s.busy = true ↔ s.phase ≠ .idle) ∧
    (s.busy = true →
      (∀ i, exec i s = .next s) ∧
      (∀ t, step s = .next t → t.host = s.host ∧ t.cmd = s.cmd) ∧
      (∀ t h, step s = .next t → step { s with host := h } = .next { t with host := h }))

/-- R13: the latch is written only when a command is accepted; the one other change is the engine's reset,
where the model picks a value (logs 5, 17). -/
def Obligations.LatchIsWrittenOnlyAtAcceptance : Prop :=
  ∀ s t : State, step s = .next t →
    t.cmd = s.cmd ∨
    (∃ w rest i, s.phase = .idle ∧ s.host = .command w :: rest ∧ decodeWord s.cfg.format w = .ok i ∧
      t.cmd = i.latchOf) ∨
    (∃ rest, s.phase = .idle ∧ s.host = .reset :: rest ∧ t.cmd = Latch.reset)

/-- R12, R3: no step, whether of the engine or of the host, changes the ROM or the build. -/
def Obligations.RomAndBuildNeverChange : Prop :=
  ∀ s t : State, step s = .next t → t.cfg.matrix = s.cfg.matrix ∧ t.cfg.format = s.cfg.format ∧
    t.cfg.bwMono = s.cfg.bwMono

/-- R135, every row with its condition: the only changes of phase. A whole command takes an idle engine back to
idle, or to `REQ` where its request has no answer yet (logs 1, 11). -/
def Obligations.PhaseChangesAreThoseOfTheTable : Prop :=
  ∀ s t : State, step s = .next t →
    (s.phase = .idle → (t.phase = .idle ∨ t.phase = .req) ∧
      (t.phase = .req ↔ s.answers = [] ∧ ∃ w rest i, s.host = .command w :: rest ∧
        decodeWord s.cfg.format w = .ok i)) ∧
    (s.phase = .req → s.answers = [] → t.phase = .req) ∧
    (∀ rest, s.phase = .req → s.answers = .deny :: rest → t.phase = .idle) ∧
    (∀ g rest, s.phase = .req → s.answers = .grant g :: rest →
      ((∃ x y, InRect s.cmd.rect g.geo x y) → t.phase = .scan) ∧
      ((∀ x y, ¬ InRect s.cmd.rect g.geo x y) → t.phase = .rel)) ∧
    (s.phase = .scan → Inv s →
      ((∃ x y, InRect s.cmd.rect s.geo x y ∧ ScanBefore (s.cx, s.cy) (x, y)) → t.phase = .scan) ∧
      ((∀ x y, InRect s.cmd.rect s.geo x y → ¬ ScanBefore (s.cx, s.cy) (x, y)) → t.phase = .rel)) ∧
    (s.phase = .rel → t.phase = .idle)

/-- The machine's invariant holds at reset (the reset values the spec does not give: logs 2, 5, 6, 7). -/
def Obligations.ResetMeetsTheInvariant : Prop := Inv State.reset ∧ TraceInv State.reset

/-- R14, R15, R16, R71: every step keeps the machine's invariant, in which a due pixel lies in the rows of R102
and the columns of R103. The canonical form of the memory is the
model's own (log 7). -/
def Obligations.StepKeepsTheInvariant : Prop :=
  ∀ s t : State, Inv s → step s = .next t → Inv t

/-- R141, R142: every step keeps the balance of grants and releases and of words and completions, on the
events the model records (log 14). -/
def Obligations.StepKeepsReleasesAndCompletionsMatched : Prop :=
  ∀ s t : State, Inv s → TraceInv s → step s = .next t → TraceInv t

/-- R170, R174, R175: no fault can happen in a state that meets the invariant. The model's faults are its own
(log 15). -/
def Obligations.NoStepFaults : Prop :=
  ∀ (s : State) (f : Fault), Inv s → step s ≠ .fault f

/-- R35, U6: the only refusal is that of an ill-formed grant, and it is made exactly of those, by a command of
an idle engine and by a step in `REQ` alike (log 13). -/
def Obligations.OnlyIllFormedGrantsAreRefused : Prop :=
  (∀ (s : State) (r : Refusal), step s = .refused r →
    r = .illFormedGeometry ∧ ∃ g rest, s.answers = .grant g :: rest ∧ ¬ g.wf s.cfg.format) ∧
  (∀ (i : Instr) (s : State) (g : Grant) (rest : List Answer), s.phase = .idle → s.answers = .grant g :: rest →
    ¬ g.wf s.cfg.format → exec i s = .refused .illFormedGeometry) ∧
  (∀ (s : State) (g : Grant) (rest : List Answer), s.phase = .req → s.answers = .grant g :: rest →
    ¬ g.wf s.cfg.format → step s = .refused .illFormedGeometry)

/-- R25, R135: the phase table and the whole command agree (logs 1, 16). From the state in which a command has been
accepted, its answer being ready, the single moves lead to the very state the whole command leaves. -/
def Obligations.SingleMovesReachTheWholeCommand : Prop :=
  ∀ (i : Instr) (s t : State), s.phase = .idle → s.answers ≠ [] → exec i s = .next t →
    ∃ n, Host.Core.run core n (acceptCommand i.latchOf s) = .next t

/-- R144: a command whose request is answered completes within the rule's bound of single moves. -/
def Obligations.CommandCompletesWithinTheBound : Prop :=
  ∀ (i : Instr) (s : State) (a : Answer) (rest : List Answer), s.phase = .idle → s.answers = a :: rest →
    (∀ g, a = .grant g → g.wf s.cfg.format) →
    ∃ n t, n ≤ 32767 * 32767 + 2 ∧ Host.Core.run core n (acceptCommand i.latchOf s) = .next t ∧ t.phase = .idle ∧
      t.answers = rest

/-- R23: the machine after reset, where the rule gives a value; no port event has happened (log 14); the
table's values are R72's (log 3). -/
def Obligations.ResetState : Prop :=
  State.reset.phase = .idle ∧ State.reset.held = false ∧ State.reset.busy = false ∧
  State.reset.trace = [] ∧
  State.reset.cfg.matrix.toList =
    [0, 32, 8, 40, 2, 34, 10, 42] ++ [48, 16, 56, 24, 50, 18, 58, 26] ++ [12, 44, 4, 36, 14, 46, 6, 38] ++
    [60, 28, 52, 20, 62, 30, 54, 22] ++ [3, 35, 11, 43, 1, 33, 9, 41] ++ [51, 19, 59, 27, 49, 17, 57, 25] ++
    [15, 47, 7, 39, 13, 45, 5, 37] ++ [63, 31, 55, 23, 61, 29, 53, 21]

/-- R190, R192: a reset of the idle engine leaves it idle, holding nothing, and touches neither the build nor
the framebuffer. That a reset reaches only an idle engine is the model's choice (log 17). -/
def Obligations.ResetMoveLeavesTheFramebuffer : Prop :=
  ∀ (s : State) (rest : List HostMove), s.phase = .idle → s.host = .reset :: rest →
    ∃ t, step s = .next t ∧ t.phase = .idle ∧ t.held = false ∧ t.busy = false ∧ t.cfg = s.cfg ∧ t.mem = s.mem ∧
      t.host = rest ∧ t.answers = s.answers ∧ t.trace = s.trace

/-- R39, R43: what the host stores in the framebuffer while the engine is idle is what the engine's next reads
of it return, and no other byte changes. The form of the host's store is the model's (logs 9, 10). -/
def Obligations.HostStoreIsSeenByTheEngine : Prop :=
  ∀ (s : State) (a : Nat) (v : Byte) (rest : List HostMove), s.phase = .idle → s.host = .store a v :: rest →
    s.mem.wf →
    ∃ t, step s = .next t ∧ (memRead a t).1 = v ∧ (∀ b, b ≠ a → (memRead b t).1 = s.mem.read b) ∧
      t.phase = .idle ∧ t.cmd = s.cmd ∧ t.host = rest

/-! ### The scan -/

/-- R167, R139, R38: `REPLACE` and `REPLACE.ANY` load each position of the clipped rectangle exactly once, in scan
order, in both pixel formats, and store at most once at each, in that order. The order is the spec's own choice
and is seen in the record only (log 14). -/
def Obligations.ReplaceLoadsEachPositionOnce : Prop :=
  ∀ (i : Instr) (s : State) (g : Grant) (rest : List Answer),
    (∃ rect c col, i = .replace rect c col) ∨ (∃ rect col, i = .replaceAny rect col) →
    ReadyToGrant s g rest →
    ∃ (t : State) (evs : List Event) (ps : List (Int × Int)), exec i s = .next t ∧ t.trace = s.trace ++ evs ∧
      ps.Pairwise ScanBefore ∧ (∀ p, p ∈ ps ↔ InRect i.rectOf g.geo p.1 p.2) ∧
      (evs.filter Event.isRead).filterMap Event.address = ps.map (fun p => g.geo.addr s.cfg.format p.1 p.2) ∧
      ((evs.filter Event.isWrite).filterMap Event.address).Sublist
        (ps.map fun p => g.geo.addr s.cfg.format p.1 p.2)

/-- R16, R139: how the scan position moves. A grant puts it on the first pixel to visit. A move of the scan makes
the pixel step of its position and goes one column on or, at the end of a row, to the first column of the next
row that has one; there is no other move. -/
def Obligations.ScanPositionMovesInOrder : Prop :=
  (∀ (s t : State) (g : Grant) (rest : List Answer), s.phase = .req → s.answers = .grant g :: rest →
    step s = .next t →
    t.geo = g.geo ∧ t.held = true ∧ t.cmd = s.cmd ∧ t.mem = s.mem ∧ t.trace = s.trace ++ [.grant g.geo] ∧
    (t.y0, t.yend) = clipRows s.cmd.yInt s.cmd.hInt g.geo.height ∧
    ∀ y, t.y0 ≤ y → y < t.yend → RowHasPixel s.cmd g.geo y →
      (∀ z, t.y0 ≤ z → z < y → ¬ RowHasPixel s.cmd g.geo z) →
      t.phase = .scan ∧ t.cy = y ∧ (t.cx, t.xe) = clipCols s.cmd.xInt s.cmd.wInt (g.geo.row y)) ∧
  (∀ s t : State, Inv s → s.phase = .scan → step s = .next t →
    t.mem = (pixelStep s).mem ∧ t.trace = (pixelStep s).trace ∧ t.cmd = s.cmd ∧ t.geo = s.geo ∧
    t.held = s.held ∧ t.y0 = s.y0 ∧ t.yend = s.yend ∧
    (s.cx < s.xe → t.phase = .scan ∧ t.cy = s.cy ∧ t.cx = s.cx + 1 ∧ t.xe = s.xe) ∧
    (s.cx = s.xe →
      (∀ y, s.cy < y → y < s.yend → RowHasPixel s.cmd s.geo y →
        (∀ z, s.cy < z → z < y → ¬ RowHasPixel s.cmd s.geo z) →
        t.phase = .scan ∧ t.cy = y ∧ (t.cx, t.xe) = clipCols s.cmd.xInt s.cmd.wInt (s.geo.row y)) ∧
      ((∀ y, s.cy < y → y < s.yend → ¬ RowHasPixel s.cmd s.geo y) → t.phase = .rel ∧ t.cy = s.yend)))
end

