-- ==== Sys2Proof/Laws/Memory.lean ====
section
/-! SUPPORT. The laws of the byte memory: a read after a write, the canonical form that every operation
keeps, and that canonical memories which read alike are equal. -/

namespace Sys2Proof.Machine

theorem Memory.read_of_lt {m : Memory} {a : Nat} (h : ∀ c ∈ m, a < c.1) :
    m.read a = Memory.unlisted := by
  induction m with
  | nil => rfl
  | cons c m ih =>
    have hc := h c (by simp)
    simp only [Memory.read]
    rw [if_neg (by omega)]
    exact ih fun d hd => h d (by simp [hd])

theorem Memory.mem_erase {m : Memory} {a : Nat} {c : Host.Cell} (h : c ∈ m.erase a) : c ∈ m := by
  induction m with
  | nil => simp [Memory.erase] at h
  | cons d m ih =>
    simp only [Memory.erase] at h
    split at h
    · exact List.mem_cons_of_mem _ h
    · rcases List.mem_cons.1 h with rfl | h
      · simp
      · exact List.mem_cons_of_mem _ (ih h)

theorem Memory.mem_insert {m : Memory} {a : Nat} {v : Byte} {c : Host.Cell} (h : c ∈ m.insert a v) :
    c = (a, v) ∨ c ∈ m := by
  induction m with
  | nil => simpa [Memory.insert] using h
  | cons d m ih =>
    simp only [Memory.insert] at h
    split at h
    · simpa using h
    · split at h
      · rcases List.mem_cons.1 h with rfl | h
        · simp
        · exact .inr (List.mem_cons_of_mem _ h)
      · rcases List.mem_cons.1 h with rfl | h
        · simp
        · exact (ih h).imp_right (List.mem_cons_of_mem _)

theorem Memory.erase_wf {m : Memory} (h : m.wf) (a : Nat) : (m.erase a).wf := by
  induction m with
  | nil => exact h
  | cons c m ih =>
    obtain ⟨hs, hv⟩ := h
    have hs' := List.pairwise_cons.1 hs
    have hm : Memory.wf m := ⟨hs'.2, fun d hd => hv d (by simp [hd])⟩
    simp only [Memory.erase]
    split
    · exact hm
    · obtain ⟨h1, h2⟩ := ih hm
      refine ⟨List.pairwise_cons.2 ⟨fun d hd => hs'.1 d (Memory.mem_erase hd), h1⟩, ?_⟩
      intro d hd
      rcases List.mem_cons.1 hd with rfl | hd
      · exact hv _ (by simp)
      · exact h2 d hd

theorem Memory.insert_wf {m : Memory} (h : m.wf) (a : Nat) {v : Byte} (hv : v ≠ Memory.unlisted) :
    (m.insert a v).wf := by
  induction m with
  | nil => simpa [Memory.insert, Memory.wf] using hv
  | cons c m ih =>
    obtain ⟨hs, hu⟩ := h
    have hs' := List.pairwise_cons.1 hs
    have hm : Memory.wf m := ⟨hs'.2, fun d hd => hu d (by simp [hd])⟩
    simp only [Memory.insert]
    split
    · rename_i hlt
      refine ⟨List.pairwise_cons.2 ⟨fun d hd => ?_, hs⟩, ?_⟩
      · rcases List.mem_cons.1 hd with rfl | hd
        · exact hlt
        · exact lt_trans hlt (hs'.1 d hd)
      · intro d hd
        rcases List.mem_cons.1 hd with rfl | hd
        · exact hv
        · exact hu d hd
    · split
      · rename_i _ heq
        refine ⟨List.pairwise_cons.2 ⟨fun d hd => ?_, hs'.2⟩, ?_⟩
        · exact heq ▸ hs'.1 d hd
        · intro d hd
          rcases List.mem_cons.1 hd with rfl | hd
          · exact hv
          · exact hm.2 d hd
      · rename_i hlt hne
        obtain ⟨h1, h2⟩ := ih hm
        refine ⟨List.pairwise_cons.2 ⟨fun d hd => ?_, h1⟩, ?_⟩
        · rcases Memory.mem_insert hd with rfl | hd
          · show c.1 < a
            omega
          · exact hs'.1 d hd
        · intro d hd
          rcases List.mem_cons.1 hd with rfl | hd
          · exact hu _ (by simp)
          · exact h2 d hd

/-- Every write keeps the canonical form. -/
theorem Memory.write_wf {m : Memory} (h : m.wf) (a : Nat) (v : Byte) : (m.write a v).wf := by
  unfold Memory.write
  split
  · exact Memory.erase_wf h a
  · exact Memory.insert_wf h a ‹_›

theorem Memory.read_erase_other {m : Memory} {a b : Nat} (hab : b ≠ a) : (m.erase a).read b = m.read b := by
  induction m with
  | nil => rfl
  | cons c m ih =>
    simp only [Memory.erase]
    split
    · rename_i heq
      simp [Memory.read, show b ≠ c.1 from heq ▸ hab]
    · simp only [Memory.read, ih]

theorem Memory.read_erase_same {m : Memory} (h : m.wf) (a : Nat) :
    (m.erase a).read a = Memory.unlisted := by
  induction m with
  | nil => rfl
  | cons c m ih =>
    obtain ⟨hs, hv⟩ := h
    have hs' := List.pairwise_cons.1 hs
    simp only [Memory.erase]
    split
    · rename_i heq
      exact Memory.read_of_lt fun d hd => heq ▸ hs'.1 d hd
    · rename_i hne
      simp only [Memory.read, if_neg hne]
      exact ih ⟨hs'.2, fun d hd => hv d (by simp [hd])⟩

theorem Memory.read_insert_same (m : Memory) (a : Nat) (v : Byte) : (m.insert a v).read a = v := by
  induction m with
  | nil => simp [Memory.insert, Memory.read]
  | cons c m ih =>
    simp only [Memory.insert]
    split
    · simp [Memory.read]
    · split
      · simp [Memory.read]
      · rename_i hne
        simp only [Memory.read, if_neg hne, ih]

theorem Memory.read_insert_other (m : Memory) {a b : Nat} (v : Byte) (hab : b ≠ a) :
    (m.insert a v).read b = m.read b := by
  induction m with
  | nil => simp [Memory.insert, Memory.read, hab]
  | cons c m ih =>
    simp only [Memory.insert]
    split
    · simp [Memory.read, hab]
    · split
      · rename_i heq
        simp [Memory.read, hab, show b ≠ c.1 from heq ▸ hab]
      · simp only [Memory.read, ih]

/-- A byte reads back as it was written (R39). -/
theorem Memory.read_write_same {m : Memory} (h : m.wf) (a : Nat) (v : Byte) : (m.write a v).read a = v := by
  unfold Memory.write
  split
  · rename_i hv
    rw [Memory.read_erase_same h, hv]
  · exact Memory.read_insert_same m a v

/-- A write changes no other byte (R39). -/
theorem Memory.read_write_other (m : Memory) {a b : Nat} (v : Byte) (hab : b ≠ a) :
    (m.write a v).read b = m.read b := by
  unfold Memory.write
  split
  · exact Memory.read_erase_other hab
  · exact Memory.read_insert_other m v hab

/-- Canonical memories that read alike at every address are equal. -/
theorem Memory.ext_of_read {m n : Memory} (hm : m.wf) (hn : n.wf) (h : ∀ a, m.read a = n.read a) : m = n := by
  induction m generalizing n with
  | nil =>
    cases n with
    | nil => rfl
    | cons d n =>
      have := h d.1
      simp only [Memory.read, if_true] at this
      exact absurd this.symm (hn.2 d (by simp))
  | cons c m ih =>
    obtain ⟨hs, hv⟩ := hm
    have hs' := List.pairwise_cons.1 hs
    cases n with
    | nil =>
      have := h c.1
      simp only [Memory.read, if_true] at this
      exact absurd this (hv c (by simp))
    | cons d n =>
      obtain ⟨ht, hu⟩ := hn
      have ht' := List.pairwise_cons.1 ht
      have hcd : c.1 = d.1 := by
        rcases Nat.lt_trichotomy c.1 d.1 with hlt | heq | hgt
        · have h1 := h c.1
          rw [Memory.read_of_lt (m := d :: n)] at h1
          · simp only [Memory.read, if_true] at h1
            exact absurd h1 (hv c (by simp))
          · intro e he
            rcases List.mem_cons.1 he with rfl | he
            · exact hlt
            · exact lt_trans hlt (ht'.1 e he)
        · exact heq
        · have h1 := h d.1
          rw [Memory.read_of_lt (m := c :: m)] at h1
          · simp only [Memory.read, if_true] at h1
            exact absurd h1.symm (hu d (by simp))
          · intro e he
            rcases List.mem_cons.1 he with rfl | he
            · exact hgt
            · exact lt_trans hgt (hs'.1 e he)
      have hval : c.2 = d.2 := by
        have h1 := h c.1
        simpa [Memory.read, hcd] using h1
      have hrest : m = n := by
        refine ih ⟨hs'.2, fun e he => hv e (by simp [he])⟩ ⟨ht'.2, fun e he => hu e (by simp [he])⟩ fun a => ?_
        by_cases ha : a = c.1
        · rw [ha, Memory.read_of_lt hs'.1, Memory.read_of_lt (hcd ▸ ht'.1)]
        · have h1 := h a
          simpa [Memory.read, ha, show a ≠ d.1 from hcd ▸ ha] using h1
      rw [hrest, Prod.ext hcd hval]

/-- Two writes at different addresses commute on canonical memories. -/
theorem Memory.write_comm {m : Memory} (h : m.wf) {a b : Nat} (u v : Byte) (hab : a ≠ b) :
    (m.write a u).write b v = (m.write b v).write a u := by
  refine Memory.ext_of_read (Memory.write_wf (Memory.write_wf h _ _) _ _)
    (Memory.write_wf (Memory.write_wf h _ _) _ _) fun c => ?_
  by_cases hb : c = b
  · subst hb
    rw [Memory.read_write_same (Memory.write_wf h _ _), Memory.read_write_other _ _ (Ne.symm hab),
      Memory.read_write_same h]
  · rw [Memory.read_write_other _ _ hb]
    by_cases ha : c = a
    · subst ha
      rw [Memory.read_write_same h, Memory.read_write_same (Memory.write_wf h _ _)]
    · rw [Memory.read_write_other _ _ ha, Memory.read_write_other _ _ ha, Memory.read_write_other _ _ hb]

/-- The later of two writes to one byte stands. -/
theorem Memory.write_write_same {m : Memory} (h : m.wf) (a : Nat) (u v : Byte) :
    (m.write a u).write a v = m.write a v := by
  refine Memory.ext_of_read (Memory.write_wf (Memory.write_wf h _ _) _ _) (Memory.write_wf h _ _) fun c => ?_
  by_cases ha : c = a
  · subst ha
    rw [Memory.read_write_same (Memory.write_wf h _ _), Memory.read_write_same h]
  · rw [Memory.read_write_other _ _ ha, Memory.read_write_other _ _ ha, Memory.read_write_other _ _ ha]

/-- Writing the value a byte already holds changes nothing (R39). -/
theorem Memory.write_read_self {m : Memory} (h : m.wf) (a : Nat) : m.write a (m.read a) = m := by
  refine Memory.ext_of_read (Memory.write_wf h _ _) h fun c => ?_
  by_cases ha : c = a
  · subst ha
    rw [Memory.read_write_same h]
  · rw [Memory.read_write_other _ _ ha]

end Sys2Proof.Machine
end

