-- ==== Sys2Proof/Laws/Operands.lean ====
section
/-! SUPPORT. What the operand forms say: clipping is intersection (spec 42_clipping.md R102, R103, R106),
and different visible pixels of a well-formed grant lie in different storage (20_memory.md R35). -/

namespace Sys2Proof.Machine

/-- R102: row clipping is `max` and `min`, in every case. -/
theorem clipRows_eq (y h height : Int) : clipRows y h height = (max y 0, min (y + h) height) := by
  by_cases hy : y < 0 <;> simp only [clipRows, hy, if_true, if_false] <;> split <;>
    refine Prod.ext ?_ ?_ <;> simp only <;> omega

theorem Geometry.height_nonneg (g : Geometry) : 0 ≤ g.height := by
  simp [Geometry.height]

/-- A row number of the geometry names a row of its list. -/
theorem Geometry.row_mem {g : Geometry} {y : Int} (h0 : 0 ≤ y) (h1 : y < g.height) : g.row y ∈ g.rows := by
  unfold Geometry.height at h1
  have hlt : y.toNat < g.rows.length := by omega
  simp [Geometry.row, h0, List.getD, List.getElem?_eq_getElem hlt]

/-- A visible position has a non-negative column (R35(a)). -/
theorem Geometry.Visible.col_nonneg {g : Geometry} {x y : Int} (hn : g.columnsNonneg) (h : g.Visible x y) :
    0 ≤ x :=
  le_trans (hn _ (Geometry.row_mem h.1 h.2.1)) h.2.2.1

theorem Grant.ok_iff {fmt : Format} {g : Grant} : g.ok fmt = true ↔ g.wf fmt := by
  simp only [Grant.ok, decide_eq_true_eq]

theorem RowGeo.mem_columns {r : RowGeo} {x : Int} : x ∈ r.columns ↔ r.minX ≤ x ∧ x ≤ r.maxX := by
  simp only [RowGeo.columns, List.mem_map, List.mem_range]
  constructor
  · rintro ⟨n, hn, rfl⟩
    omega
  · intro h
    exact ⟨(x - r.minX).toNat, by omega, by omega⟩

/-- R35(b): a visible position's byte lies in the storage handed over. -/
theorem Grant.wf.visible_stored {fmt : Format} {g : Grant} (h : g.wf fmt) {x y : Int}
    (hv : g.geo.Visible x y) : inStorage g.storage (g.geo.addr fmt x y) :=
  h.2.1 _ (Geometry.row_mem hv.1 hv.2.1) x (RowGeo.mem_columns.2 hv.2.2)

/-- Different rows of a geometry whose cells are distinct are apart. -/
theorem Geometry.rows_apart {fmt : Format} {g : Geometry} (h : g.cellsDistinct fmt) {y y' : Int}
    (h0 : 0 ≤ y) (h1 : y < g.height) (h0' : 0 ≤ y') (h1' : y' < g.height) (hne : y ≠ y') :
    rowsApart fmt (g.row y) (g.row y') := by
  unfold Geometry.height at h1 h1'
  have hl : y.toNat < g.rows.length := by omega
  have hl' : y'.toNat < g.rows.length := by omega
  have e : g.row y = g.rows[y.toNat] := by
    simp [Geometry.row, h0, List.getD, List.getElem?_eq_getElem hl]
  have e' : g.row y' = g.rows[y'.toNat] := by
    simp [Geometry.row, h0', List.getD, List.getElem?_eq_getElem hl']
  have hp := List.pairwise_iff_getElem.1 h
  rcases Nat.lt_or_ge y.toNat y'.toNat with hlt | hge
  · rw [e, e']
    exact hp _ _ hl hl' hlt
  · have := hp y'.toNat y.toNat hl' hl (by omega)
    rw [e, e']
    unfold rowsApart at this ⊢
    omega

/-- R35(c) in terms of bytes and bits: two visible positions that share a cell are one position. -/
theorem Geometry.owns_unique {fmt : Format} {g : Geometry} (hn : g.columnsNonneg) (hc : g.cellsDistinct fmt)
    {x y x' y' : Int} {a k : Nat} (hv : g.Visible x y) (hv' : g.Visible x' y')
    (h : g.owns fmt x y a k) (h' : g.owns fmt x' y' a k) : x = x' ∧ y = y' := by
  have hx := hv.col_nonneg hn
  have hx' := hv'.col_nonneg hn
  by_cases hy : y = y'
  · subst hy
    refine ⟨?_, rfl⟩
    cases fmt <;> simp only [Geometry.owns, Geometry.addr, pixelAddr, pixelBit] at h h' <;> omega
  · exfalso
    have ha := Geometry.rows_apart hc hv.1 hv.2.1 hv'.1 hv'.2.1 hy
    have hv2 := hv.2.2
    have hv2' := hv'.2.2
    cases fmt <;> simp only [Geometry.owns, Geometry.addr, pixelAddr, pixelBit, rowsApart, rowCell] at h h' ha <;>
      omega

/-- A pixel's own bits, at its own address. -/
theorem Geometry.owns_self {fmt : Format} (g : Geometry) (x y : Int) :
    ∃ k, k < 8 ∧ g.owns fmt x y (g.addr fmt x y) k := by
  cases fmt
  · exact ⟨pixelBit x, by unfold pixelBit; omega, rfl, rfl⟩
  · exact ⟨0, by omega, rfl⟩

theorem InRect.visible {rect : Rect} {g : Geometry} {x y : Int} (h : InRect rect g x y) : g.Visible x y :=
  ⟨h.1, h.2.1, h.2.2.2.2.1, h.2.2.2.2.2.1⟩

end Sys2Proof.Machine
end

