-- ==== Sys2Proof/Laws/State.lean ====
section
/-! SUPPORT. One lemma for each state field and each named update, so that no later proof unfolds a record
update. -/

namespace Sys2Proof.Machine

/-! ### emit -/

@[simp] theorem emit_cfg (e : Event) (s : State) : (emit e s).cfg = s.cfg := rfl
@[simp] theorem emit_cmd (e : Event) (s : State) : (emit e s).cmd = s.cmd := rfl
@[simp] theorem emit_phase (e : Event) (s : State) : (emit e s).phase = s.phase := rfl
@[simp] theorem emit_held (e : Event) (s : State) : (emit e s).held = s.held := rfl
@[simp] theorem emit_geo (e : Event) (s : State) : (emit e s).geo = s.geo := rfl
@[simp] theorem emit_y0 (e : Event) (s : State) : (emit e s).y0 = s.y0 := rfl
@[simp] theorem emit_yend (e : Event) (s : State) : (emit e s).yend = s.yend := rfl
@[simp] theorem emit_cy (e : Event) (s : State) : (emit e s).cy = s.cy := rfl
@[simp] theorem emit_cx (e : Event) (s : State) : (emit e s).cx = s.cx := rfl
@[simp] theorem emit_xe (e : Event) (s : State) : (emit e s).xe = s.xe := rfl
@[simp] theorem emit_mem (e : Event) (s : State) : (emit e s).mem = s.mem := rfl
@[simp] theorem emit_host (e : Event) (s : State) : (emit e s).host = s.host := rfl
@[simp] theorem emit_answers (e : Event) (s : State) : (emit e s).answers = s.answers := rfl
@[simp] theorem emit_trace (e : Event) (s : State) : (emit e s).trace = s.trace ++ [e] := rfl

/-! ### memRead_snd -/

@[simp] theorem memRead_snd_cfg (a : Nat) (s : State) : (memRead a s).2.cfg = s.cfg := rfl
@[simp] theorem memRead_snd_cmd (a : Nat) (s : State) : (memRead a s).2.cmd = s.cmd := rfl
@[simp] theorem memRead_snd_phase (a : Nat) (s : State) : (memRead a s).2.phase = s.phase := rfl
@[simp] theorem memRead_snd_held (a : Nat) (s : State) : (memRead a s).2.held = s.held := rfl
@[simp] theorem memRead_snd_geo (a : Nat) (s : State) : (memRead a s).2.geo = s.geo := rfl
@[simp] theorem memRead_snd_y0 (a : Nat) (s : State) : (memRead a s).2.y0 = s.y0 := rfl
@[simp] theorem memRead_snd_yend (a : Nat) (s : State) : (memRead a s).2.yend = s.yend := rfl
@[simp] theorem memRead_snd_cy (a : Nat) (s : State) : (memRead a s).2.cy = s.cy := rfl
@[simp] theorem memRead_snd_cx (a : Nat) (s : State) : (memRead a s).2.cx = s.cx := rfl
@[simp] theorem memRead_snd_xe (a : Nat) (s : State) : (memRead a s).2.xe = s.xe := rfl
@[simp] theorem memRead_snd_mem (a : Nat) (s : State) : (memRead a s).2.mem = s.mem := rfl
@[simp] theorem memRead_snd_host (a : Nat) (s : State) : (memRead a s).2.host = s.host := rfl
@[simp] theorem memRead_snd_answers (a : Nat) (s : State) : (memRead a s).2.answers = s.answers := rfl
@[simp] theorem memRead_snd_trace (a : Nat) (s : State) : (memRead a s).2.trace = s.trace ++ [.memRead a (s.mem.read a)] := rfl

/-! ### memWrite -/

@[simp] theorem memWrite_cfg (a : Nat) (v : Byte) (s : State) : (memWrite a v s).cfg = s.cfg := rfl
@[simp] theorem memWrite_cmd (a : Nat) (v : Byte) (s : State) : (memWrite a v s).cmd = s.cmd := rfl
@[simp] theorem memWrite_phase (a : Nat) (v : Byte) (s : State) : (memWrite a v s).phase = s.phase := rfl
@[simp] theorem memWrite_held (a : Nat) (v : Byte) (s : State) : (memWrite a v s).held = s.held := rfl
@[simp] theorem memWrite_geo (a : Nat) (v : Byte) (s : State) : (memWrite a v s).geo = s.geo := rfl
@[simp] theorem memWrite_y0 (a : Nat) (v : Byte) (s : State) : (memWrite a v s).y0 = s.y0 := rfl
@[simp] theorem memWrite_yend (a : Nat) (v : Byte) (s : State) : (memWrite a v s).yend = s.yend := rfl
@[simp] theorem memWrite_cy (a : Nat) (v : Byte) (s : State) : (memWrite a v s).cy = s.cy := rfl
@[simp] theorem memWrite_cx (a : Nat) (v : Byte) (s : State) : (memWrite a v s).cx = s.cx := rfl
@[simp] theorem memWrite_xe (a : Nat) (v : Byte) (s : State) : (memWrite a v s).xe = s.xe := rfl
@[simp] theorem memWrite_mem (a : Nat) (v : Byte) (s : State) : (memWrite a v s).mem = s.mem.write a v := rfl
@[simp] theorem memWrite_host (a : Nat) (v : Byte) (s : State) : (memWrite a v s).host = s.host := rfl
@[simp] theorem memWrite_answers (a : Nat) (v : Byte) (s : State) : (memWrite a v s).answers = s.answers := rfl
@[simp] theorem memWrite_trace (a : Nat) (v : Byte) (s : State) : (memWrite a v s).trace = s.trace ++ [.memWrite a v] := rfl

/-! ### signalDone -/

@[simp] theorem signalDone_cfg (s : State) : (signalDone s).cfg = s.cfg := rfl
@[simp] theorem signalDone_cmd (s : State) : (signalDone s).cmd = s.cmd := rfl
@[simp] theorem signalDone_phase (s : State) : (signalDone s).phase = .idle := rfl
@[simp] theorem signalDone_held (s : State) : (signalDone s).held = s.held := rfl
@[simp] theorem signalDone_geo (s : State) : (signalDone s).geo = s.geo := rfl
@[simp] theorem signalDone_y0 (s : State) : (signalDone s).y0 = s.y0 := rfl
@[simp] theorem signalDone_yend (s : State) : (signalDone s).yend = s.yend := rfl
@[simp] theorem signalDone_cy (s : State) : (signalDone s).cy = s.cy := rfl
@[simp] theorem signalDone_cx (s : State) : (signalDone s).cx = s.cx := rfl
@[simp] theorem signalDone_xe (s : State) : (signalDone s).xe = s.xe := rfl
@[simp] theorem signalDone_mem (s : State) : (signalDone s).mem = s.mem := rfl
@[simp] theorem signalDone_host (s : State) : (signalDone s).host = s.host := rfl
@[simp] theorem signalDone_answers (s : State) : (signalDone s).answers = s.answers := rfl
@[simp] theorem signalDone_trace (s : State) : (signalDone s).trace = s.trace ++ [.done] := rfl

/-! ### releaseCapture -/

@[simp] theorem releaseCapture_cfg (s : State) : (releaseCapture s).cfg = s.cfg := rfl
@[simp] theorem releaseCapture_cmd (s : State) : (releaseCapture s).cmd = s.cmd := rfl
@[simp] theorem releaseCapture_phase (s : State) : (releaseCapture s).phase = s.phase := rfl
@[simp] theorem releaseCapture_held (s : State) : (releaseCapture s).held = false := rfl
@[simp] theorem releaseCapture_geo (s : State) : (releaseCapture s).geo = s.geo := rfl
@[simp] theorem releaseCapture_y0 (s : State) : (releaseCapture s).y0 = s.y0 := rfl
@[simp] theorem releaseCapture_yend (s : State) : (releaseCapture s).yend = s.yend := rfl
@[simp] theorem releaseCapture_cy (s : State) : (releaseCapture s).cy = s.cy := rfl
@[simp] theorem releaseCapture_cx (s : State) : (releaseCapture s).cx = s.cx := rfl
@[simp] theorem releaseCapture_xe (s : State) : (releaseCapture s).xe = s.xe := rfl
@[simp] theorem releaseCapture_mem (s : State) : (releaseCapture s).mem = s.mem := rfl
@[simp] theorem releaseCapture_host (s : State) : (releaseCapture s).host = s.host := rfl
@[simp] theorem releaseCapture_answers (s : State) : (releaseCapture s).answers = s.answers := rfl
@[simp] theorem releaseCapture_trace (s : State) : (releaseCapture s).trace = s.trace ++ [.release] := rfl

/-! ### finishCommand -/

@[simp] theorem finishCommand_cfg (s : State) : (finishCommand s).cfg = s.cfg := rfl
@[simp] theorem finishCommand_cmd (s : State) : (finishCommand s).cmd = s.cmd := rfl
@[simp] theorem finishCommand_phase (s : State) : (finishCommand s).phase = .idle := rfl
@[simp] theorem finishCommand_held (s : State) : (finishCommand s).held = false := rfl
@[simp] theorem finishCommand_geo (s : State) : (finishCommand s).geo = s.geo := rfl
@[simp] theorem finishCommand_y0 (s : State) : (finishCommand s).y0 = s.y0 := rfl
@[simp] theorem finishCommand_yend (s : State) : (finishCommand s).yend = s.yend := rfl
@[simp] theorem finishCommand_cy (s : State) : (finishCommand s).cy = s.cy := rfl
@[simp] theorem finishCommand_cx (s : State) : (finishCommand s).cx = s.cx := rfl
@[simp] theorem finishCommand_xe (s : State) : (finishCommand s).xe = s.xe := rfl
@[simp] theorem finishCommand_mem (s : State) : (finishCommand s).mem = s.mem := rfl
@[simp] theorem finishCommand_host (s : State) : (finishCommand s).host = s.host := rfl
@[simp] theorem finishCommand_answers (s : State) : (finishCommand s).answers = s.answers := rfl
@[simp] theorem finishCommand_trace (s : State) : (finishCommand s).trace = s.trace ++ [.release] ++ [.done] := rfl

/-! ### acceptCommand -/

@[simp] theorem acceptCommand_cfg (k : Latch) (s : State) : (acceptCommand k s).cfg = s.cfg := rfl
@[simp] theorem acceptCommand_cmd (k : Latch) (s : State) : (acceptCommand k s).cmd = k := rfl
@[simp] theorem acceptCommand_phase (k : Latch) (s : State) : (acceptCommand k s).phase = .req := rfl
@[simp] theorem acceptCommand_held (k : Latch) (s : State) : (acceptCommand k s).held = s.held := rfl
@[simp] theorem acceptCommand_geo (k : Latch) (s : State) : (acceptCommand k s).geo = s.geo := rfl
@[simp] theorem acceptCommand_y0 (k : Latch) (s : State) : (acceptCommand k s).y0 = s.y0 := rfl
@[simp] theorem acceptCommand_yend (k : Latch) (s : State) : (acceptCommand k s).yend = s.yend := rfl
@[simp] theorem acceptCommand_cy (k : Latch) (s : State) : (acceptCommand k s).cy = s.cy := rfl
@[simp] theorem acceptCommand_cx (k : Latch) (s : State) : (acceptCommand k s).cx = s.cx := rfl
@[simp] theorem acceptCommand_xe (k : Latch) (s : State) : (acceptCommand k s).xe = s.xe := rfl
@[simp] theorem acceptCommand_mem (k : Latch) (s : State) : (acceptCommand k s).mem = s.mem := rfl
@[simp] theorem acceptCommand_host (k : Latch) (s : State) : (acceptCommand k s).host = s.host := rfl
@[simp] theorem acceptCommand_answers (k : Latch) (s : State) : (acceptCommand k s).answers = s.answers := rfl
@[simp] theorem acceptCommand_trace (k : Latch) (s : State) : (acceptCommand k s).trace = s.trace ++ [.captureRequest] := rfl

/-! ### denyCapture -/

@[simp] theorem denyCapture_cfg (s : State) : (denyCapture s).cfg = s.cfg := rfl
@[simp] theorem denyCapture_cmd (s : State) : (denyCapture s).cmd = s.cmd := rfl
@[simp] theorem denyCapture_phase (s : State) : (denyCapture s).phase = .idle := rfl
@[simp] theorem denyCapture_held (s : State) : (denyCapture s).held = s.held := rfl
@[simp] theorem denyCapture_geo (s : State) : (denyCapture s).geo = s.geo := rfl
@[simp] theorem denyCapture_y0 (s : State) : (denyCapture s).y0 = s.y0 := rfl
@[simp] theorem denyCapture_yend (s : State) : (denyCapture s).yend = s.yend := rfl
@[simp] theorem denyCapture_cy (s : State) : (denyCapture s).cy = s.cy := rfl
@[simp] theorem denyCapture_cx (s : State) : (denyCapture s).cx = s.cx := rfl
@[simp] theorem denyCapture_xe (s : State) : (denyCapture s).xe = s.xe := rfl
@[simp] theorem denyCapture_mem (s : State) : (denyCapture s).mem = s.mem := rfl
@[simp] theorem denyCapture_host (s : State) : (denyCapture s).host = s.host := rfl
@[simp] theorem denyCapture_answers (s : State) : (denyCapture s).answers = s.answers := rfl
@[simp] theorem denyCapture_trace (s : State) : (denyCapture s).trace = s.trace ++ [.deny] ++ [.done] := rfl

/-! ### nextCol -/

@[simp] theorem nextCol_cfg (s : State) : (nextCol s).cfg = s.cfg := rfl
@[simp] theorem nextCol_cmd (s : State) : (nextCol s).cmd = s.cmd := rfl
@[simp] theorem nextCol_phase (s : State) : (nextCol s).phase = s.phase := rfl
@[simp] theorem nextCol_held (s : State) : (nextCol s).held = s.held := rfl
@[simp] theorem nextCol_geo (s : State) : (nextCol s).geo = s.geo := rfl
@[simp] theorem nextCol_y0 (s : State) : (nextCol s).y0 = s.y0 := rfl
@[simp] theorem nextCol_yend (s : State) : (nextCol s).yend = s.yend := rfl
@[simp] theorem nextCol_cy (s : State) : (nextCol s).cy = s.cy := rfl
@[simp] theorem nextCol_cx (s : State) : (nextCol s).cx = s.cx + 1 := rfl
@[simp] theorem nextCol_xe (s : State) : (nextCol s).xe = s.xe := rfl
@[simp] theorem nextCol_mem (s : State) : (nextCol s).mem = s.mem := rfl
@[simp] theorem nextCol_host (s : State) : (nextCol s).host = s.host := rfl
@[simp] theorem nextCol_answers (s : State) : (nextCol s).answers = s.answers := rfl
@[simp] theorem nextCol_trace (s : State) : (nextCol s).trace = s.trace := rfl

/-! ### nextRow -/

@[simp] theorem nextRow_cfg (s : State) : (nextRow s).cfg = s.cfg := rfl
@[simp] theorem nextRow_cmd (s : State) : (nextRow s).cmd = s.cmd := rfl
@[simp] theorem nextRow_phase (s : State) : (nextRow s).phase = s.phase := rfl
@[simp] theorem nextRow_held (s : State) : (nextRow s).held = s.held := rfl
@[simp] theorem nextRow_geo (s : State) : (nextRow s).geo = s.geo := rfl
@[simp] theorem nextRow_y0 (s : State) : (nextRow s).y0 = s.y0 := rfl
@[simp] theorem nextRow_yend (s : State) : (nextRow s).yend = s.yend := rfl
@[simp] theorem nextRow_cy (s : State) : (nextRow s).cy = s.cy + 1 := rfl
@[simp] theorem nextRow_cx (s : State) : (nextRow s).cx = s.cx := rfl
@[simp] theorem nextRow_xe (s : State) : (nextRow s).xe = s.xe := rfl
@[simp] theorem nextRow_mem (s : State) : (nextRow s).mem = s.mem := rfl
@[simp] theorem nextRow_host (s : State) : (nextRow s).host = s.host := rfl
@[simp] theorem nextRow_answers (s : State) : (nextRow s).answers = s.answers := rfl
@[simp] theorem nextRow_trace (s : State) : (nextRow s).trace = s.trace := rfl

/-! ### startRow -/

@[simp] theorem startRow_cfg (s : State) : (startRow s).cfg = s.cfg := rfl
@[simp] theorem startRow_cmd (s : State) : (startRow s).cmd = s.cmd := rfl
@[simp] theorem startRow_phase (s : State) : (startRow s).phase = s.phase := rfl
@[simp] theorem startRow_held (s : State) : (startRow s).held = s.held := rfl
@[simp] theorem startRow_geo (s : State) : (startRow s).geo = s.geo := rfl
@[simp] theorem startRow_y0 (s : State) : (startRow s).y0 = s.y0 := rfl
@[simp] theorem startRow_yend (s : State) : (startRow s).yend = s.yend := rfl
@[simp] theorem startRow_cy (s : State) : (startRow s).cy = s.cy := rfl
@[simp] theorem startRow_cx (s : State) : (startRow s).cx = max s.cmd.xInt (s.geo.row s.cy).minX := rfl
@[simp] theorem startRow_xe (s : State) : (startRow s).xe = min (s.cmd.xInt + s.cmd.wInt - 1) (s.geo.row s.cy).maxX := rfl
@[simp] theorem startRow_mem (s : State) : (startRow s).mem = s.mem := rfl
@[simp] theorem startRow_host (s : State) : (startRow s).host = s.host := rfl
@[simp] theorem startRow_answers (s : State) : (startRow s).answers = s.answers := rfl
@[simp] theorem startRow_trace (s : State) : (startRow s).trace = s.trace := rfl

/-! ### grantCapture -/

@[simp] theorem grantCapture_cfg (g : Geometry) (s : State) : (grantCapture g s).cfg = s.cfg := rfl
@[simp] theorem grantCapture_cmd (g : Geometry) (s : State) : (grantCapture g s).cmd = s.cmd := rfl
@[simp] theorem grantCapture_phase (g : Geometry) (s : State) : (grantCapture g s).phase = .scan := rfl
@[simp] theorem grantCapture_held (g : Geometry) (s : State) : (grantCapture g s).held = true := rfl
@[simp] theorem grantCapture_geo (g : Geometry) (s : State) : (grantCapture g s).geo = g := rfl
@[simp] theorem grantCapture_y0 (g : Geometry) (s : State) : (grantCapture g s).y0 = (clipRows s.cmd.yInt s.cmd.hInt g.height).1 := rfl
@[simp] theorem grantCapture_yend (g : Geometry) (s : State) : (grantCapture g s).yend = (clipRows s.cmd.yInt s.cmd.hInt g.height).2 := rfl
@[simp] theorem grantCapture_cy (g : Geometry) (s : State) : (grantCapture g s).cy = (clipRows s.cmd.yInt s.cmd.hInt g.height).1 := rfl
@[simp] theorem grantCapture_cx (g : Geometry) (s : State) : (grantCapture g s).cx = s.cx := rfl
@[simp] theorem grantCapture_xe (g : Geometry) (s : State) : (grantCapture g s).xe = s.xe := rfl
@[simp] theorem grantCapture_mem (g : Geometry) (s : State) : (grantCapture g s).mem = s.mem := rfl
@[simp] theorem grantCapture_host (g : Geometry) (s : State) : (grantCapture g s).host = s.host := rfl
@[simp] theorem grantCapture_answers (g : Geometry) (s : State) : (grantCapture g s).answers = s.answers := rfl
@[simp] theorem grantCapture_trace (g : Geometry) (s : State) : (grantCapture g s).trace = s.trace ++ [.grant g] := rfl

/-! ### choosePhase -/

@[simp] theorem choosePhase_cfg (s : State) : (choosePhase s).cfg = s.cfg := rfl
@[simp] theorem choosePhase_cmd (s : State) : (choosePhase s).cmd = s.cmd := rfl
@[simp] theorem choosePhase_phase (s : State) : (choosePhase s).phase = if s.cy < s.yend then .scan else .rel := rfl
@[simp] theorem choosePhase_held (s : State) : (choosePhase s).held = s.held := rfl
@[simp] theorem choosePhase_geo (s : State) : (choosePhase s).geo = s.geo := rfl
@[simp] theorem choosePhase_y0 (s : State) : (choosePhase s).y0 = s.y0 := rfl
@[simp] theorem choosePhase_yend (s : State) : (choosePhase s).yend = s.yend := rfl
@[simp] theorem choosePhase_cy (s : State) : (choosePhase s).cy = s.cy := rfl
@[simp] theorem choosePhase_cx (s : State) : (choosePhase s).cx = s.cx := rfl
@[simp] theorem choosePhase_xe (s : State) : (choosePhase s).xe = s.xe := rfl
@[simp] theorem choosePhase_mem (s : State) : (choosePhase s).mem = s.mem := rfl
@[simp] theorem choosePhase_host (s : State) : (choosePhase s).host = s.host := rfl
@[simp] theorem choosePhase_answers (s : State) : (choosePhase s).answers = s.answers := rfl
@[simp] theorem choosePhase_trace (s : State) : (choosePhase s).trace = s.trace := rfl

/-! ### takeCommand -/

@[simp] theorem takeCommand_cfg (w : CmdWord) (rest : List HostMove) (s : State) : (takeCommand w rest s).cfg = s.cfg := rfl
@[simp] theorem takeCommand_cmd (w : CmdWord) (rest : List HostMove) (s : State) : (takeCommand w rest s).cmd = s.cmd := rfl
@[simp] theorem takeCommand_phase (w : CmdWord) (rest : List HostMove) (s : State) : (takeCommand w rest s).phase = s.phase := rfl
@[simp] theorem takeCommand_held (w : CmdWord) (rest : List HostMove) (s : State) : (takeCommand w rest s).held = s.held := rfl
@[simp] theorem takeCommand_geo (w : CmdWord) (rest : List HostMove) (s : State) : (takeCommand w rest s).geo = s.geo := rfl
@[simp] theorem takeCommand_y0 (w : CmdWord) (rest : List HostMove) (s : State) : (takeCommand w rest s).y0 = s.y0 := rfl
@[simp] theorem takeCommand_yend (w : CmdWord) (rest : List HostMove) (s : State) : (takeCommand w rest s).yend = s.yend := rfl
@[simp] theorem takeCommand_cy (w : CmdWord) (rest : List HostMove) (s : State) : (takeCommand w rest s).cy = s.cy := rfl
@[simp] theorem takeCommand_cx (w : CmdWord) (rest : List HostMove) (s : State) : (takeCommand w rest s).cx = s.cx := rfl
@[simp] theorem takeCommand_xe (w : CmdWord) (rest : List HostMove) (s : State) : (takeCommand w rest s).xe = s.xe := rfl
@[simp] theorem takeCommand_mem (w : CmdWord) (rest : List HostMove) (s : State) : (takeCommand w rest s).mem = s.mem := rfl
@[simp] theorem takeCommand_host (w : CmdWord) (rest : List HostMove) (s : State) : (takeCommand w rest s).host = rest := rfl
@[simp] theorem takeCommand_answers (w : CmdWord) (rest : List HostMove) (s : State) : (takeCommand w rest s).answers = s.answers := rfl
@[simp] theorem takeCommand_trace (w : CmdWord) (rest : List HostMove) (s : State) : (takeCommand w rest s).trace = s.trace ++ [.take w] := rfl

@[simp] theorem memRead_fst (a : Nat) (s : State) : (memRead a s).1 = s.mem.read a := rfl

end Sys2Proof.Machine
end

