-- ==== Sys2Proof/Laws/Writer.lean ====
section
/-! SUPPORT. What a pixel step can do (spec 43_framebuffer_writer.md): it changes at most the byte at its own
address and records its accesses; in terms of pixels it changes at most its own (R126). -/

namespace Sys2Proof.Machine

/-! ### One bit of a byte, R8 and R121 -/

theorem setbit_getLsbD (b : Byte) (k : Nat) (q : Bool) {i : Nat} (hi : i < 8) :
    (setbit b k q).getLsbD i = if i = k then q else b.getLsbD i := by
  unfold setbit
  cases q
  · by_cases h : i = k
    · subst h
      simp [hi]
    · simp [h, hi]
  · by_cases h : i = k
    · subst h
      simp [hi]
    · simp [BitVec.getLsbD_twoPow, h, Ne.symm h]

/-! ### What a pixel step stores -/

/-- Whether the pixel step of a state stores (R120, R122, R123, R124). -/
def pixelStores (s : State) : Bool :=
  s.cmd.op == .fill ||
    match s.cfg.format with
    | .color => matchColor s.cmd (s.mem.read s.curAddr)
    | .mono => matchMono s.cmd ((s.mem.read s.curAddr).getLsbD (pixelBit s.cx))

/-- The byte it stores (R119, R121). -/
def pixelByte (s : State) : Byte :=
  match s.cfg.format with
  | .color => s.curColor
  | .mono => setbit (s.mem.read s.curAddr) (pixelBit s.cx) s.curMono

/-- Whether it reads (R38). -/
def pixelReads (s : State) : Bool := s.cmd.op == .replace || s.cfg.format == .mono

/-- The accesses of a pixel step, in order (R38). -/
def pixelEvents (s : State) : List Event :=
  (if pixelReads s then [.memRead s.curAddr (s.mem.read s.curAddr)] else []) ++
    (if pixelStores s then [.memWrite s.curAddr (pixelByte s)] else [])

/-- Everything a pixel step does: at most one byte is written, and its accesses are recorded. -/
theorem pixelStep_eq (s : State) :
    pixelStep s =
      { s with
        mem := if pixelStores s then s.mem.write s.curAddr (pixelByte s) else s.mem
        trace := s.trace ++ pixelEvents s } := by
  unfold pixelStep
  split <;> rename_i hop hfmt
  · simp [stepFillColor, storePixelColor, memWrite, emit, pixelStores, pixelEvents, pixelReads, pixelByte, hop, hfmt]
  · simp [stepFillMono, loadPixelMono, storeBitMono, memRead, memWrite, emit, pixelStores, pixelEvents, pixelReads,
      pixelByte, hop, hfmt, State.curAddr, State.curMono]
  · by_cases hm : matchColor s.cmd (s.mem.read s.curAddr) <;>
      simp [stepReplaceColor, loadPixelColor, storePixelColor, memRead, memWrite, emit, pixelStores, pixelEvents,
        pixelReads, pixelByte, hop, hfmt, State.curAddr, State.curColor] <;>
      simp_all [State.curAddr]
  · by_cases hm : matchMono s.cmd ((s.mem.read s.curAddr).getLsbD (pixelBit s.cx)) <;>
      simp [stepReplaceMono, loadPixelMono, storeBitMono, memRead, memWrite, emit, pixelStores, pixelEvents,
        pixelReads, pixelByte, hop, hfmt, State.curAddr, State.curMono] <;>
      simp_all [State.curAddr]

@[simp] theorem pixelStep_cfg (s : State) : (pixelStep s).cfg = s.cfg := by rw [pixelStep_eq]
@[simp] theorem pixelStep_cmd (s : State) : (pixelStep s).cmd = s.cmd := by rw [pixelStep_eq]
@[simp] theorem pixelStep_phase (s : State) : (pixelStep s).phase = s.phase := by rw [pixelStep_eq]
@[simp] theorem pixelStep_held (s : State) : (pixelStep s).held = s.held := by rw [pixelStep_eq]
@[simp] theorem pixelStep_geo (s : State) : (pixelStep s).geo = s.geo := by rw [pixelStep_eq]
@[simp] theorem pixelStep_y0 (s : State) : (pixelStep s).y0 = s.y0 := by rw [pixelStep_eq]
@[simp] theorem pixelStep_yend (s : State) : (pixelStep s).yend = s.yend := by rw [pixelStep_eq]
@[simp] theorem pixelStep_cy (s : State) : (pixelStep s).cy = s.cy := by rw [pixelStep_eq]
@[simp] theorem pixelStep_cx (s : State) : (pixelStep s).cx = s.cx := by rw [pixelStep_eq]
@[simp] theorem pixelStep_xe (s : State) : (pixelStep s).xe = s.xe := by rw [pixelStep_eq]
@[simp] theorem pixelStep_host (s : State) : (pixelStep s).host = s.host := by rw [pixelStep_eq]
@[simp] theorem pixelStep_answers (s : State) : (pixelStep s).answers = s.answers := by rw [pixelStep_eq]

theorem pixelStep_mem (s : State) :
    (pixelStep s).mem = if pixelStores s then s.mem.write s.curAddr (pixelByte s) else s.mem := by
  rw [pixelStep_eq]

theorem pixelStep_trace (s : State) : (pixelStep s).trace = s.trace ++ pixelEvents s := by
  rw [pixelStep_eq]

theorem pixelStep_wf {s : State} (h : s.mem.wf) : (pixelStep s).mem.wf := by
  rw [pixelStep_mem]
  split
  · exact Memory.write_wf h _ _
  · exact h

theorem pixelStep_read_other (s : State) {a : Nat} (ha : a ≠ s.curAddr) :
    (pixelStep s).mem.read a = s.mem.read a := by
  rw [pixelStep_mem]
  split
  · exact Memory.read_write_other _ _ ha
  · rfl

theorem pixelEvents_access (s : State) : ∀ e ∈ pixelEvents s, e.isAccess = true ∧ e.address = some s.curAddr := by
  intro e he
  unfold pixelEvents at he
  rcases List.mem_append.1 he with he | he
  · split at he
    · rw [List.mem_singleton.1 he]
      exact ⟨rfl, rfl⟩
    · cases he
  · split at he
    · rw [List.mem_singleton.1 he]
      exact ⟨rfl, rfl⟩
    · cases he

/-! ### Pixels -/

/-- Whether a latched command rewrites a pixel of a given value (R162). -/
def Latch.selects (fmt : Format) (k : Latch) (p : Pixel) : Prop :=
  k.op = .fill ∨ k.wild = true ∨ p = packedFilter fmt k.fcolor

theorem pixelStores_iff (s : State) :
    pixelStores s = true ↔
      s.cmd.selects s.cfg.format (pixelAt s.cfg.format s.geo s.mem s.cx s.cy) := by
  unfold pixelStores Latch.selects pixelAt packedFilter
  cases hf : s.cfg.format <;> simp [matchColor, matchMono, State.curAddr, hf]

/-- What a set of positions `P` makes of a memory when a latched command visits each of them once: the
selected pixels of `P` take their dithered value, every other visible pixel keeps its value, and so does
every bit that belongs to no position of `P`. -/
structure Painted (cfg : Config) (k : Latch) (g : Geometry) (P : Int → Int → Prop) (m m' : Memory) : Prop where
  painted : ∀ x y, P x y → k.selects cfg.format (pixelAt cfg.format g m x y) →
    pixelAt cfg.format g m' x y = pixelFor cfg k.col x y
  unselected : ∀ x y, P x y → ¬ k.selects cfg.format (pixelAt cfg.format g m x y) →
    pixelAt cfg.format g m' x y = pixelAt cfg.format g m x y
  kept : ∀ a j, j < 8 → (∀ x y, P x y → ¬ g.owns cfg.format x y a j) →
    (m'.read a).getLsbD j = (m.read a).getLsbD j

/-- A pixel none of whose bits changed is unchanged. -/
theorem pixelAt_congr {fmt : Format} {g : Geometry} {m m' : Memory} {x y : Int}
    (h : ∀ j, j < 8 → g.owns fmt x y (g.addr fmt x y) j →
      (m'.read (g.addr fmt x y)).getLsbD j = (m.read (g.addr fmt x y)).getLsbD j) :
    pixelAt fmt g m' x y = pixelAt fmt g m x y := by
  cases fmt
  · simp only [pixelAt, Pixel.bit.injEq]
    exact h _ (by unfold pixelBit; omega) ⟨rfl, rfl⟩
  · simp only [pixelAt, Pixel.byte.injEq]
    exact BitVec.eq_of_getLsbD_eq fun j hj => h j hj rfl

/-- Positions outside `P` show what they showed before. -/
theorem Painted.pixelAt_outside {cfg : Config} {k : Latch} {g : Geometry} {P : Int → Int → Prop} {m m' : Memory}
    (h : Painted cfg k g P m m') (hn : g.columnsNonneg) (hc : g.cellsDistinct cfg.format)
    (hP : ∀ x y, P x y → g.Visible x y) {x y : Int} (hv : g.Visible x y) (hx : ¬ P x y) :
    pixelAt cfg.format g m' x y = pixelAt cfg.format g m x y := by
  refine pixelAt_congr fun j hj ho => h.kept _ _ hj fun x' y' hp ho' => ?_
  obtain ⟨rfl, rfl⟩ := Geometry.owns_unique hn hc hv (hP _ _ hp) ho ho'
  exact hx hp

theorem Painted.refl (cfg : Config) (k : Latch) (g : Geometry) {P : Int → Int → Prop} (m : Memory)
    (hP : ∀ x y, ¬ P x y) : Painted cfg k g P m m where
  painted x y h := absurd h (hP x y)
  unselected x y h := absurd h (hP x y)
  kept _ _ _ _ := rfl

/-- Visiting the positions of `P` and then those of `Q`, none of them in `P`, visits them all. -/
theorem Painted.trans {cfg : Config} {k : Latch} {g : Geometry} {P Q R : Int → Int → Prop} {m m' m'' : Memory}
    (h : Painted cfg k g P m m') (h' : Painted cfg k g Q m' m'')
    (hn : g.columnsNonneg) (hc : g.cellsDistinct cfg.format)
    (hR : ∀ x y, R x y ↔ P x y ∨ Q x y) (hd : ∀ x y, P x y → ¬ Q x y) (hv : ∀ x y, R x y → g.Visible x y) :
    Painted cfg k g R m m'' := by
  have hP : ∀ x y, P x y → g.Visible x y := fun x y hp => hv x y ((hR x y).2 (.inl hp))
  have hQ : ∀ x y, Q x y → g.Visible x y := fun x y hq => hv x y ((hR x y).2 (.inr hq))
  refine ⟨fun x y hr hs => ?_, fun x y hr hs => ?_, fun a j hj hk => ?_⟩
  · rcases (hR x y).1 hr with hp | hq
    · rw [h'.pixelAt_outside hn hc hQ (hP _ _ hp) (hd _ _ hp)]
      exact h.painted x y hp hs
    · have e := h.pixelAt_outside hn hc hP (hQ _ _ hq) (fun hp => hd _ _ hp hq)
      exact h'.painted x y hq (e ▸ hs)
  · rcases (hR x y).1 hr with hp | hq
    · rw [h'.pixelAt_outside hn hc hQ (hP _ _ hp) (hd _ _ hp)]
      exact h.unselected x y hp hs
    · have e := h.pixelAt_outside hn hc hP (hQ _ _ hq) (fun hp => hd _ _ hp hq)
      rw [h'.unselected x y hq (e ▸ hs), e]
  · rw [h'.kept a j hj fun x y hq => hk x y ((hR x y).2 (.inr hq)),
      h.kept a j hj fun x y hp => hk x y ((hR x y).2 (.inl hp))]

/-- R126: a pixel step is one visit of its own position. -/
theorem pixelStep_painted {s : State} (hm : s.mem.wf) :
    Painted s.cfg s.cmd s.geo (fun x y => x = s.cx ∧ y = s.cy) s.mem (pixelStep s).mem := by
  refine ⟨?_, ?_, ?_⟩
  · rintro x y ⟨rfl, rfl⟩ hs
    rw [pixelStep_mem, if_pos ((pixelStores_iff s).2 hs)]
    unfold pixelAt pixelFor pixelByte
    have ha : s.curAddr = s.geo.addr s.cfg.format s.cx s.cy := rfl
    cases hf : s.cfg.format
    · rw [hf] at ha
      rw [← ha, Memory.read_write_same hm, setbit_getLsbD _ _ _ (by unfold pixelBit; omega), if_pos rfl]
      rfl
    · rw [hf] at ha
      rw [← ha, Memory.read_write_same hm]
      rfl
  · rintro x y ⟨rfl, rfl⟩ hs
    rw [pixelStep_mem, if_neg fun h => hs ((pixelStores_iff s).1 h)]
  · intro a j hj hk
    rw [pixelStep_mem]
    split
    · by_cases ha : a = s.curAddr
      · subst ha
        have hno := hk _ _ ⟨rfl, rfl⟩
        rw [Memory.read_write_same hm]
        unfold pixelByte
        unfold Geometry.owns State.curAddr at hno
        cases hf : s.cfg.format
        · rw [hf] at hno
          simp only [true_and] at hno
          simp only
          rw [setbit_getLsbD _ _ _ hj, if_neg fun h => hno h.symm]
        · rw [hf] at hno
          exact absurd rfl hno
      · rw [Memory.read_write_other _ _ ha]
    · rfl

/-! ### Framebuffers that agree -/

/-- A bit of a pixel that two framebuffers show alike is the same in both. -/
theorem bit_of_pixelAt_eq {fmt : Format} {g : Geometry} {m m' : Memory} {x y : Int} {a k : Nat}
    (ho : g.owns fmt x y a k) (h : pixelAt fmt g m' x y = pixelAt fmt g m x y) :
    (m'.read a).getLsbD k = (m.read a).getLsbD k := by
  cases fmt <;> simp only [Geometry.owns] at ho <;>
    simp only [pixelAt, Pixel.bit.injEq, Pixel.byte.injEq] at h
  · rw [← ho.1, ← ho.2]
    exact h
  · rw [← ho, h]

/-- Two framebuffers that show the same pixels at some positions and have the same bits elsewhere are equal. -/
theorem Memory.ext_of_pixels {fmt : Format} {g : Geometry} {m m' : Memory} {P : Int → Int → Prop}
    (hw : m.wf) (hw' : m'.wf) (hp : ∀ x y, P x y → pixelAt fmt g m x y = pixelAt fmt g m' x y)
    (hk : ∀ a j, j < 8 → (∀ x y, P x y → ¬ g.owns fmt x y a j) →
      (m.read a).getLsbD j = (m'.read a).getLsbD j) : m = m' := by
  refine Memory.ext_of_read hw hw' fun a => BitVec.eq_of_getLsbD_eq fun j hj => ?_
  by_cases h : ∃ x y, P x y ∧ g.owns fmt x y a j
  · obtain ⟨x, y, h1, h2⟩ := h
    exact bit_of_pixelAt_eq h2 (hp x y h1)
  · exact hk a j hj fun x y h1 h2 => h ⟨x, y, h1, h2⟩

/-! ### What a pixel step depends on -/

/-- Two states that agree on everything a pixel step at a given position depends on, or adds to. -/
structure SameScan (s t : State) : Prop where
  cfg : t.cfg = s.cfg
  cmd : t.cmd = s.cmd
  geo : t.geo = s.geo
  mem : t.mem = s.mem
  trace : t.trace = s.trace

theorem SameScan.refl (s : State) : SameScan s s := ⟨rfl, rfl, rfl, rfl, rfl⟩

theorem SameScan.trans {s t u : State} (h : SameScan s t) (h' : SameScan t u) : SameScan s u :=
  ⟨h'.cfg.trans h.cfg, h'.cmd.trans h.cmd, h'.geo.trans h.geo, h'.mem.trans h.mem, h'.trace.trans h.trace⟩

/-- A pixel step depends on the build, the latch, the geometry, the memory and the position only. -/
theorem SameScan.pixelStep {s t : State} (h : SameScan s t) (hx : t.cx = s.cx) (hy : t.cy = s.cy) :
    SameScan (pixelStep s) (pixelStep t) := by
  have ha : t.curAddr = s.curAddr := by unfold State.curAddr; rw [h.cfg, h.geo, hx, hy]
  have hb : pixelByte t = pixelByte s := by
    unfold pixelByte State.curColor State.curMono
    rw [ha, h.cfg, h.cmd, h.mem, hx, hy]
  have hs : pixelStores t = pixelStores s := by
    unfold pixelStores
    rw [ha, h.cfg, h.cmd, h.mem, hx]
  have hr : pixelReads t = pixelReads s := by
    unfold pixelReads
    rw [h.cfg, h.cmd]
  refine ⟨by simpa using h.cfg, by simpa using h.cmd, by simpa using h.geo, ?_, ?_⟩
  · rw [pixelStep_mem, pixelStep_mem, hs, ha, hb, h.mem]
  · rw [pixelStep_trace, pixelStep_trace, h.trace]
    unfold pixelEvents
    rw [hr, hs, ha, hb, h.mem]

theorem SameScan.visit {s t : State} (h : SameScan s t) (p : Int × Int) : SameScan (visit s p) (visit t p) :=
  SameScan.pixelStep (s := { s with cx := p.1, cy := p.2 }) (t := { t with cx := p.1, cy := p.2 })
    ⟨h.cfg, h.cmd, h.geo, h.mem, h.trace⟩ rfl rfl

theorem SameScan.visitAll {s t : State} (h : SameScan s t) (ps : List (Int × Int)) :
    SameScan (visitAll s ps) (visitAll t ps) := by
  induction ps generalizing s t with
  | nil => exact h
  | cons p ps ih => exact ih (h.visit p)

theorem visitAll_append (s : State) (ps qs : List (Int × Int)) :
    visitAll s (ps ++ qs) = visitAll (visitAll s ps) qs := List.foldl_append

/-- Visiting some positions is one pixel step each, each adding its accesses (R38). -/
theorem visit_trace (s : State) (p : Int × Int) :
    (visit s p).trace = s.trace ++ pixelEvents { s with cx := p.1, cy := p.2 } :=
  pixelStep_trace _

end Sys2Proof.Machine
end

