-- ==== Sys2Proof/Laws/Scan.lean ====
section
/-! SUPPORT. What the scan can do (spec 44_command_execution.md R139): it visits each position of the clipped
rectangle once, changes nothing but the memory, the position and the record of accesses, and touches no
byte but those of the positions it visits. -/

namespace Sys2Proof.Machine

/-- What no pixel step and no move of the position changes. -/
structure ScanKeeps (s t : State) : Prop where
  cfg : t.cfg = s.cfg
  cmd : t.cmd = s.cmd
  phase : t.phase = s.phase
  held : t.held = s.held
  geo : t.geo = s.geo
  y0 : t.y0 = s.y0
  yend : t.yend = s.yend
  host : t.host = s.host
  answers : t.answers = s.answers

theorem ScanKeeps.refl (s : State) : ScanKeeps s s := ⟨rfl, rfl, rfl, rfl, rfl, rfl, rfl, rfl, rfl⟩

theorem ScanKeeps.trans {s t u : State} (h : ScanKeeps s t) (h' : ScanKeeps t u) : ScanKeeps s u :=
  ⟨h'.cfg.trans h.cfg, h'.cmd.trans h.cmd, h'.phase.trans h.phase, h'.held.trans h.held, h'.geo.trans h.geo,
    h'.y0.trans h.y0, h'.yend.trans h.yend, h'.host.trans h.host, h'.answers.trans h.answers⟩

theorem scanKeeps_pixelStep (s : State) : ScanKeeps s (pixelStep s) := by
  constructor <;> simp

theorem scanKeeps_nextCol (s : State) : ScanKeeps s (nextCol s) := by
  constructor <;> simp

theorem scanKeeps_nextRow (s : State) : ScanKeeps s (nextRow s) := by
  constructor <;> simp

theorem scanKeeps_startRow (s : State) : ScanKeeps s (startRow s) := by
  constructor <;> simp

/-- The accesses between two states, all of them at positions of `P`. -/
structure AccessesOf (P : Int → Int → Prop) (s t : State) (evs : List Event) : Prop where
  trace : t.trace = s.trace ++ evs
  access : ∀ e ∈ evs, e.isAccess = true
  address : ∀ e ∈ evs, ∃ x y, P x y ∧ e.address = some (s.geo.addr s.cfg.format x y)

theorem AccessesOf.trans {P Q R : Int → Int → Prop} {s t u : State} {es fs : List Event} (k : ScanKeeps s t)
    (h : AccessesOf P s t es) (h' : AccessesOf Q t u fs)
    (hP : ∀ x y, P x y → R x y) (hQ : ∀ x y, Q x y → R x y) : AccessesOf R s u (es ++ fs) := by
  refine ⟨by rw [h'.trace, h.trace, List.append_assoc], fun e he => ?_, fun e he => ?_⟩
  · rcases List.mem_append.1 he with he | he
    · exact h.access e he
    · exact h'.access e he
  · rcases List.mem_append.1 he with he | he
    · obtain ⟨x, y, hp, ha⟩ := h.address e he
      exact ⟨x, y, hP x y hp, ha⟩
    · obtain ⟨x, y, hq, ha⟩ := h'.address e he
      exact ⟨x, y, hQ x y hq, by rw [ha, k.geo, k.cfg]⟩

theorem AccessesOf.none {P : Int → Int → Prop} {s t : State} (h : t.trace = s.trace) : AccessesOf P s t [] :=
  ⟨by simpa using h, by simp, by simp⟩

theorem accessesOf_pixelStep (s : State) :
    AccessesOf (fun x y => x = s.cx ∧ y = s.cy) s (pixelStep s) (pixelEvents s) :=
  ⟨pixelStep_trace s, fun e he => (pixelEvents_access s e he).1,
    fun e he => ⟨s.cx, s.cy, ⟨rfl, rfl⟩, (pixelEvents_access s e he).2⟩⟩

/-! ### The inner loop -/

/-- The positions the inner loop visits. -/
abbrev colRun (s : State) (n : Nat) (x y : Int) : Prop := s.cx ≤ x ∧ x < s.cx + n ∧ y = s.cy

theorem scanCols_keeps (n : Nat) (s : State) : ScanKeeps s (scanCols n s) := by
  induction n generalizing s with
  | zero => exact ScanKeeps.refl s
  | succ n ih =>
    exact ((scanKeeps_pixelStep s).trans (scanKeeps_nextCol _)).trans (ih _)

theorem scanCols_position (n : Nat) (s : State) :
    (scanCols n s).cy = s.cy ∧ (scanCols n s).cx = s.cx + n ∧ (scanCols n s).xe = s.xe := by
  induction n generalizing s with
  | zero => simp [scanCols]
  | succ n ih =>
    obtain ⟨h1, h2, h3⟩ := ih (nextCol (pixelStep s))
    simp only [nextCol_cy, pixelStep_cy, nextCol_cx, pixelStep_cx, nextCol_xe, pixelStep_xe] at h1 h2 h3
    refine ⟨h1, ?_, h3⟩
    rw [scanCols, h2]
    push_cast
    omega

theorem scanCols_wf (n : Nat) {s : State} (h : s.mem.wf) : (scanCols n s).mem.wf := by
  induction n generalizing s with
  | zero => exact h
  | succ n ih => exact ih (s := nextCol (pixelStep s)) (pixelStep_wf h)

theorem scanCols_accesses (n : Nat) (s : State) : ∃ evs, AccessesOf (colRun s n) s (scanCols n s) evs := by
  induction n generalizing s with
  | zero => exact ⟨[], AccessesOf.none rfl⟩
  | succ n ih =>
    obtain ⟨evs, h⟩ := ih (nextCol (pixelStep s))
    have h0 : AccessesOf (fun x y => x = s.cx ∧ y = s.cy) s (nextCol (pixelStep s)) (pixelEvents s) := by
      obtain ⟨a, b, c⟩ := accessesOf_pixelStep s
      exact ⟨a, b, c⟩
    refine ⟨_, h0.trans ((scanKeeps_pixelStep s).trans (scanKeeps_nextCol _)) h ?_ ?_⟩
    · rintro x y ⟨rfl, rfl⟩
      exact ⟨le_refl _, by push_cast; omega, rfl⟩
    · rintro x y ⟨h1, h2, h3⟩
      simp only [nextCol_cx, pixelStep_cx, nextCol_cy, pixelStep_cy] at h1 h2 h3
      exact ⟨by omega, by push_cast; omega, h3⟩

theorem scanCols_painted (n : Nat) {s : State} (hm : s.mem.wf) (hn : s.geo.columnsNonneg)
    (hc : s.geo.cellsDistinct s.cfg.format) (hv : ∀ x y, colRun s n x y → s.geo.Visible x y) :
    Painted s.cfg s.cmd s.geo (colRun s n) s.mem (scanCols n s).mem := by
  induction n generalizing s with
  | zero => exact Painted.refl _ _ _ _ fun x y h => by have := h.1; have := h.2.1; push_cast at *; omega
  | succ n ih =>
    have h0 := pixelStep_painted hm
    have h1 := ih (s := nextCol (pixelStep s)) (pixelStep_wf hm)
      (by simpa using hn) (by simpa using hc)
      (by
        intro x y h
        simp only [colRun, nextCol_cx, pixelStep_cx, nextCol_cy, pixelStep_cy] at h
        have := hv x y ⟨by omega, by push_cast; omega, h.2.2⟩
        simpa using this)
    simp only [nextCol_cfg, pixelStep_cfg, nextCol_cmd, pixelStep_cmd, nextCol_geo, pixelStep_geo, nextCol_mem] at h1
    refine h0.trans h1 hn hc ?_ ?_ hv
    · intro x y
      simp only [colRun, nextCol_cx, pixelStep_cx, nextCol_cy, pixelStep_cy]
      push_cast
      omega
    · rintro x y ⟨rfl, rfl⟩ h
      simp only [colRun, nextCol_cx, pixelStep_cx, nextCol_cy, pixelStep_cy] at h
      omega

theorem scanCols_read_other (n : Nat) {s : State} {a : Nat}
    (h : ∀ x y, colRun s n x y → s.geo.addr s.cfg.format x y ≠ a) : (scanCols n s).mem.read a = s.mem.read a := by
  induction n generalizing s with
  | zero => rfl
  | succ n ih =>
    have h1 := ih (s := nextCol (pixelStep s)) (by
      intro x y hp
      simp only [colRun, nextCol_cx, pixelStep_cx, nextCol_cy, pixelStep_cy] at hp
      simpa using h x y ⟨by omega, by push_cast; omega, hp.2.2⟩)
    rw [scanCols, h1, nextCol_mem]
    refine pixelStep_read_other s fun ha => ?_
    exact h s.cx s.cy ⟨le_refl _, by push_cast; omega, rfl⟩ ha.symm

/-! ### One row -/

/-- The positions of row `y` inside the latched columns and the row's visible range (R103). -/
abbrev inCols (k : Latch) (g : Geometry) (x y : Int) : Prop :=
  (g.row y).minX ≤ x ∧ x ≤ (g.row y).maxX ∧ k.xInt ≤ x ∧ x < k.xInt + k.wInt

theorem colRun_startRow (s : State) (x y : Int) :
    colRun (startRow s) (startRow s).colsLeft x y ↔ y = s.cy ∧ inCols s.cmd s.geo x y := by
  unfold colRun State.colsLeft
  simp only [startRow_cx, startRow_xe, startRow_cy]
  constructor
  · rintro ⟨h1, h2, rfl⟩
    unfold inCols
    omega
  · rintro ⟨rfl, h⟩
    unfold inCols at h
    omega

theorem scanRow_keeps (s : State) : ScanKeeps s (scanRow s) :=
  ((scanKeeps_startRow s).trans (scanCols_keeps _ _)).trans (scanKeeps_nextRow _)

theorem scanRow_cy (s : State) : (scanRow s).cy = s.cy + 1 := by
  simp [scanRow, (scanCols_position _ _).1]

theorem scanRow_wf {s : State} (h : s.mem.wf) : (scanRow s).mem.wf :=
  scanCols_wf _ (s := startRow s) h

theorem scanRow_accesses (s : State) :
    ∃ evs, AccessesOf (fun x y => y = s.cy ∧ inCols s.cmd s.geo x y) s (scanRow s) evs := by
  obtain ⟨evs, h1, h2, h3⟩ := scanCols_accesses (startRow s).colsLeft (startRow s)
  refine ⟨evs, h1, h2, fun e he => ?_⟩
  obtain ⟨x, y, hp, ha⟩ := h3 e he
  exact ⟨x, y, (colRun_startRow s x y).1 hp, ha⟩

theorem scanRow_painted {s : State} (hm : s.mem.wf) (hn : s.geo.columnsNonneg)
    (hc : s.geo.cellsDistinct s.cfg.format) (h0 : 0 ≤ s.cy) (h1 : s.cy < s.geo.height) :
    Painted s.cfg s.cmd s.geo (fun x y => y = s.cy ∧ inCols s.cmd s.geo x y) s.mem (scanRow s).mem := by
  have h := scanCols_painted (startRow s).colsLeft (s := startRow s) hm hn hc (by
    intro x y h
    obtain ⟨rfl, h⟩ := (colRun_startRow s x y).1 h
    exact ⟨h0, h1, h.1, h.2.1⟩)
  have e : colRun (startRow s) (startRow s).colsLeft = fun x y => y = s.cy ∧ inCols s.cmd s.geo x y := by
    funext x y
    exact propext (colRun_startRow s x y)
  rw [e] at h
  exact h

theorem scanRow_read_other {s : State} {a : Nat}
    (h : ∀ x, inCols s.cmd s.geo x s.cy → s.geo.addr s.cfg.format x s.cy ≠ a) :
    (scanRow s).mem.read a = s.mem.read a :=
  scanCols_read_other _ (s := startRow s) fun x y hp => by
    obtain ⟨rfl, hi⟩ := (colRun_startRow s x y).1 hp
    exact h x hi

/-! ### The outer loop -/

/-- The positions the outer loop visits. -/
abbrev rowRun (s : State) (n : Nat) (x y : Int) : Prop :=
  s.cy ≤ y ∧ y < s.cy + n ∧ inCols s.cmd s.geo x y

theorem scanRows_keeps (n : Nat) (s : State) : ScanKeeps s (scanRows n s) := by
  induction n generalizing s with
  | zero => exact ScanKeeps.refl s
  | succ n ih => exact (scanRow_keeps s).trans (ih _)

theorem scanRows_cy (n : Nat) (s : State) : (scanRows n s).cy = s.cy + n := by
  induction n generalizing s with
  | zero => simp [scanRows]
  | succ n ih =>
    rw [scanRows, ih, scanRow_cy]
    push_cast
    omega

theorem scanRows_wf (n : Nat) {s : State} (h : s.mem.wf) : (scanRows n s).mem.wf := by
  induction n generalizing s with
  | zero => exact h
  | succ n ih => exact ih (scanRow_wf h)

theorem scanRows_accesses (n : Nat) (s : State) : ∃ evs, AccessesOf (rowRun s n) s (scanRows n s) evs := by
  induction n generalizing s with
  | zero => exact ⟨[], AccessesOf.none rfl⟩
  | succ n ih =>
    obtain ⟨es, h⟩ := scanRow_accesses s
    obtain ⟨fs, h'⟩ := ih (scanRow s)
    have k := scanRow_keeps s
    refine ⟨_, h.trans k h' ?_ ?_⟩
    · rintro x y ⟨rfl, hi⟩
      exact ⟨le_refl _, by push_cast; omega, hi⟩
    · rintro x y ⟨h1, h2, h3⟩
      rw [scanRow_cy] at h1 h2
      rw [k.cmd, k.geo] at h3
      exact ⟨by omega, by push_cast; omega, h3⟩

theorem scanRows_painted (n : Nat) {s : State} (hm : s.mem.wf) (hn : s.geo.columnsNonneg)
    (hc : s.geo.cellsDistinct s.cfg.format) (h0 : 0 ≤ s.cy) (h1 : s.cy + n ≤ s.geo.height) :
    Painted s.cfg s.cmd s.geo (rowRun s n) s.mem (scanRows n s).mem := by
  induction n generalizing s with
  | zero => exact Painted.refl _ _ _ _ fun x y h => by have := h.1; have := h.2.1; push_cast at *; omega
  | succ n ih =>
    push_cast at h1
    have k := scanRow_keeps s
    have hr := scanRow_painted hm hn hc h0 (by omega)
    have ht := ih (s := scanRow s) (scanRow_wf hm) (by rw [k.geo]; exact hn) (by rw [k.geo, k.cfg]; exact hc)
      (by rw [scanRow_cy]; omega) (by rw [scanRow_cy, k.geo]; omega)
    rw [k.cfg, k.cmd, k.geo] at ht
    refine hr.trans ht hn hc ?_ ?_ ?_
    · intro x y
      simp only [rowRun, scanRow_cy, k.cmd, k.geo]
      push_cast
      constructor
      · rintro ⟨h2, h3, h4⟩
        by_cases hy : y = s.cy
        · exact .inl ⟨hy, h4⟩
        · exact .inr ⟨by omega, by omega, h4⟩
      · rintro (⟨rfl, h4⟩ | ⟨h2, h3, h4⟩)
        · exact ⟨by omega, by omega, h4⟩
        · exact ⟨by omega, by omega, h4⟩
    · rintro x y ⟨rfl, _⟩ h
      rw [rowRun, scanRow_cy] at h
      omega
    · rintro x y ⟨h2, h3, h4⟩
      push_cast at h3
      exact ⟨by omega, by omega, h4.1, h4.2.1⟩

/-- A byte that is at the address of no visited position is unchanged. -/
theorem scanRows_read_other (n : Nat) {s : State} {a : Nat}
    (h : ∀ x y, rowRun s n x y → s.geo.addr s.cfg.format x y ≠ a) : (scanRows n s).mem.read a = s.mem.read a := by
  induction n generalizing s with
  | zero => rfl
  | succ n ih =>
    have k := scanRow_keeps s
    rw [scanRows, ih (s := scanRow s) (by
      intro x y hp
      rw [rowRun, scanRow_cy, k.cmd, k.geo] at hp
      rw [k.geo, k.cfg]
      exact h x y ⟨by omega, by push_cast; omega, hp.2.2⟩)]
    exact scanRow_read_other fun x hi => h x s.cy ⟨le_refl _, by push_cast; omega, hi⟩

/-! ### Nothing to visit -/

theorem scanCols_none {n : Nat} {s : State} (h : ∀ x y, ¬ colRun s n x y) : scanCols n s = s := by
  cases n with
  | zero => rfl
  | succ n => exact absurd ⟨le_refl _, by push_cast; omega, rfl⟩ (h s.cx s.cy)

/-- A scan with no position to visit leaves the framebuffer and the record of accesses (R107). -/
theorem scanRows_none (n : Nat) {s : State} (h : ∀ x y, ¬ rowRun s n x y) :
    (scanRows n s).mem = s.mem ∧ (scanRows n s).trace = s.trace := by
  induction n generalizing s with
  | zero => exact ⟨rfl, rfl⟩
  | succ n ih =>
    have k := scanRow_keeps s
    have e : scanCols (startRow s).colsLeft (startRow s) = startRow s := scanCols_none fun x y hc => by
      obtain ⟨rfl, hi⟩ := (colRun_startRow s x y).1 hc
      exact h x s.cy ⟨le_refl _, by push_cast; omega, hi⟩
    have hr := ih (s := scanRow s) fun x y hp => by
      rw [rowRun, scanRow_cy, k.cmd, k.geo] at hp
      exact h x y ⟨by omega, by push_cast; omega, hp.2.2⟩
    rw [scanRows, hr.1, hr.2, scanRow]
    simp only [e]
    exact ⟨rfl, rfl⟩

/-! ### The positions visited, in order -/

/-- The inner loop visits its columns from left to right. -/
theorem scanCols_visits (n : Nat) (s : State) :
    ∃ ps : List (Int × Int), ps.Pairwise ScanBefore ∧ (∀ p, p ∈ ps ↔ colRun s n p.1 p.2) ∧
      SameScan (visitAll s ps) (scanCols n s) := by
  induction n generalizing s with
  | zero =>
    refine ⟨[], List.Pairwise.nil, fun p => ⟨fun h => by simp at h, fun h => ?_⟩, SameScan.refl s⟩
    have := h.1
    have := h.2.1
    push_cast at *
    omega
  | succ n ih =>
    obtain ⟨ps, ho, hm, hs⟩ := ih (nextCol (pixelStep s))
    have hm' : ∀ p, p ∈ ps ↔ s.cx + 1 ≤ p.1 ∧ p.1 < s.cx + 1 + n ∧ p.2 = s.cy := by
      intro p
      simpa [colRun] using hm p
    refine ⟨(s.cx, s.cy) :: ps, List.pairwise_cons.2 ⟨fun p hp => ?_, ho⟩, fun p => ?_, ?_⟩
    · have := (hm' p).1 hp
      exact .inr ⟨by simp only; omega, by simp only; omega⟩
    · rw [List.mem_cons, hm', Prod.ext_iff, colRun]
      push_cast
      omega
    · have h1 : SameScan (visit s (s.cx, s.cy)) (nextCol (pixelStep s)) := ⟨rfl, rfl, rfl, rfl, rfl⟩
      exact (h1.visitAll ps).trans hs

/-- A row's positions are visited from left to right. -/
theorem scanRow_visits (s : State) :
    ∃ ps : List (Int × Int), ps.Pairwise ScanBefore ∧
      (∀ p, p ∈ ps ↔ p.2 = s.cy ∧ inCols s.cmd s.geo p.1 p.2) ∧ SameScan (visitAll s ps) (scanRow s) := by
  obtain ⟨ps, ho, hm, hs⟩ := scanCols_visits (startRow s).colsLeft (startRow s)
  refine ⟨ps, ho, fun p => (hm p).trans (colRun_startRow s p.1 p.2), ?_⟩
  have h1 : SameScan s (startRow s) := ⟨rfl, rfl, rfl, rfl, rfl⟩
  obtain ⟨a, b, c, d, e⟩ := (h1.visitAll ps).trans hs
  exact ⟨a, b, c, d, e⟩

/-- R139: the scan visits each of its positions once, rows from top to bottom and columns from left to right. -/
theorem scanRows_visits (n : Nat) (s : State) :
    ∃ ps : List (Int × Int), ps.Pairwise ScanBefore ∧ (∀ p, p ∈ ps ↔ rowRun s n p.1 p.2) ∧
      SameScan (visitAll s ps) (scanRows n s) := by
  induction n generalizing s with
  | zero =>
    refine ⟨[], List.Pairwise.nil, fun p => ⟨fun h => by simp at h, fun h => ?_⟩, SameScan.refl s⟩
    have := h.1
    have := h.2.1
    push_cast at *
    omega
  | succ n ih =>
    obtain ⟨ps, ho, hm, hs⟩ := scanRow_visits s
    obtain ⟨qs, ho', hm', hs'⟩ := ih (scanRow s)
    have k := scanRow_keeps s
    simp only [rowRun, scanRow_cy, k.cmd, k.geo] at hm'
    refine ⟨ps ++ qs, List.pairwise_append.2 ⟨ho, ho', fun p hp q hq => ?_⟩, fun p => ?_, ?_⟩
    · have h1 := ((hm p).1 hp).1
      have h2 := ((hm' q).1 hq).1
      exact .inl (by omega)
    · rw [List.mem_append, hm, hm', rowRun]
      push_cast
      constructor
      · rintro (⟨h1, h2⟩ | ⟨h1, h2, h3⟩)
        · exact ⟨by omega, by omega, h2⟩
        · exact ⟨by omega, by omega, h3⟩
      · rintro ⟨h1, h2, h3⟩
        by_cases hy : p.2 = s.cy
        · exact .inl ⟨hy, h3⟩
        · exact .inr ⟨by omega, by omega, h3⟩
    · rw [visitAll_append]
      exact (hs.visitAll qs).trans hs'

end Sys2Proof.Machine
end

