-- ==== Sys2Proof/Laws/Exec.lean ====
section
/-! SUPPORT. What a command can do, said once (spec 44_command_execution.md R135 to R142): a busy engine does
not take it; with no answer it waits; after `Deny` it completes; after a well-formed `Grant` it scans the
clipped rectangle, releases and completes; an ill-formed grant is refused. -/

namespace Sys2Proof.Machine

/-- The state in which a granted command's scan starts. -/
def grantedStart (k : Latch) (g : Geometry) (rest : List Answer) (s : State) : State :=
  grantCapture g { acceptCommand k s with answers := rest }

/-- The state in which a granted command has completed. -/
def grantedEnd (k : Latch) (g : Geometry) (rest : List Answer) (s : State) : State :=
  finishCommand (scanRows (grantedStart k g rest s).rowsLeft (grantedStart k g rest s))

/-- Everything a command can do. -/
theorem runCommand_cases (k : Latch) (s : State) :
    (s.phase ≠ .idle ∧ runCommand k s = .next s) ∨
    (s.phase = .idle ∧ s.answers = [] ∧ runCommand k s = .next (acceptCommand k s)) ∨
    (∃ rest, s.phase = .idle ∧ s.answers = .deny :: rest ∧
      runCommand k s = .next (denyCapture { acceptCommand k s with answers := rest })) ∨
    (∃ g rest, s.phase = .idle ∧ s.answers = .grant g :: rest ∧ g.wf s.cfg.format ∧
      runCommand k s = .next (grantedEnd k g.geo rest s)) ∨
    (∃ g rest, s.phase = .idle ∧ s.answers = .grant g :: rest ∧ ¬ g.wf s.cfg.format ∧
      runCommand k s = .refused .illFormedGeometry) := by
  unfold runCommand
  cases hp : s.phase
  · right
    simp only [runCaptured, acceptCommand_answers]
    cases ha : s.answers with
    | nil => exact .inl ⟨trivial, rfl, rfl⟩
    | cons a rest =>
      right
      cases a with
      | deny => exact .inl ⟨rest, trivial, rfl, rfl⟩
      | grant g =>
        right
        by_cases hg : g.wf s.cfg.format
        · exact .inl ⟨g, rest, trivial, rfl, hg, if_pos (Grant.ok_iff.2 hg)⟩
        · exact .inr ⟨g, rest, trivial, rfl, hg, if_neg (mt Grant.ok_iff.1 hg)⟩
  all_goals exact .inl ⟨by simp, rfl⟩

theorem runCommand_busy {k : Latch} {s : State} (h : s.phase ≠ .idle) : runCommand k s = .next s := by
  unfold runCommand
  cases hp : s.phase
  · exact absurd hp h
  all_goals rfl

theorem runCommand_waits {k : Latch} {s : State} (hp : s.phase = .idle) (ha : s.answers = []) :
    runCommand k s = .next (acceptCommand k s) := by
  simp [runCommand, hp, runCaptured, ha]

theorem runCommand_denied {k : Latch} {s : State} {rest : List Answer} (h : ReadyToDeny s rest) :
    runCommand k s = .next (denyCapture { acceptCommand k s with answers := rest }) := by
  simp [runCommand, h.idle, runCaptured, h.answer]

theorem runCommand_granted {k : Latch} {s : State} {g : Grant} {rest : List Answer} (h : ReadyToGrant s g rest) :
    runCommand k s = .next (grantedEnd k g.geo rest s) := by
  simp only [runCommand, h.idle, runCaptured, acceptCommand_answers, h.answer]
  exact if_pos (Grant.ok_iff.2 h.wf)

/-! ### The granted scan -/

@[simp] theorem grantedStart_cfg (k : Latch) (g : Geometry) (rest : List Answer) (s : State) :
    (grantedStart k g rest s).cfg = s.cfg := rfl
@[simp] theorem grantedStart_cmd (k : Latch) (g : Geometry) (rest : List Answer) (s : State) :
    (grantedStart k g rest s).cmd = k := rfl
@[simp] theorem grantedStart_geo (k : Latch) (g : Geometry) (rest : List Answer) (s : State) :
    (grantedStart k g rest s).geo = g := rfl
@[simp] theorem grantedStart_mem (k : Latch) (g : Geometry) (rest : List Answer) (s : State) :
    (grantedStart k g rest s).mem = s.mem := rfl
@[simp] theorem grantedStart_host (k : Latch) (g : Geometry) (rest : List Answer) (s : State) :
    (grantedStart k g rest s).host = s.host := rfl
@[simp] theorem grantedStart_answers (k : Latch) (g : Geometry) (rest : List Answer) (s : State) :
    (grantedStart k g rest s).answers = rest := rfl
@[simp] theorem grantedStart_trace (k : Latch) (g : Geometry) (rest : List Answer) (s : State) :
    (grantedStart k g rest s).trace = s.trace ++ [.captureRequest] ++ [.grant g] := rfl

theorem grantedStart_cy (k : Latch) (g : Geometry) (rest : List Answer) (s : State) :
    (grantedStart k g rest s).cy = max k.yInt 0 := by
  show (clipRows k.yInt k.hInt g.height).1 = _
  rw [clipRows_eq]

theorem grantedStart_y0 (k : Latch) (g : Geometry) (rest : List Answer) (s : State) :
    (grantedStart k g rest s).y0 = max k.yInt 0 := grantedStart_cy k g rest s

theorem grantedStart_yend (k : Latch) (g : Geometry) (rest : List Answer) (s : State) :
    (grantedStart k g rest s).yend = min (k.yInt + k.hInt) g.height := by
  show (clipRows k.yInt k.hInt g.height).2 = _
  rw [clipRows_eq]

/-- R106: the positions a granted command visits are those of the requested rectangle that are visible. -/
theorem rowRun_grantedStart (k : Latch) (g : Geometry) (rest : List Answer) (s : State) (x y : Int) :
    rowRun (grantedStart k g rest s) (grantedStart k g rest s).rowsLeft x y ↔ InRect k.rect g x y := by
  unfold rowRun inCols State.rowsLeft InRect
  rw [grantedStart_cy, grantedStart_yend, grantedStart_cmd, grantedStart_geo]
  simp only [Latch.xInt, Latch.yInt, Latch.wInt, Latch.hInt]
  omega

theorem grantedEnd_keeps (k : Latch) (g : Geometry) (rest : List Answer) (s : State) :
    (grantedEnd k g rest s).cfg = s.cfg ∧ (grantedEnd k g rest s).cmd = k ∧
      (grantedEnd k g rest s).phase = .idle ∧ (grantedEnd k g rest s).held = false ∧
      (grantedEnd k g rest s).geo = g ∧ (grantedEnd k g rest s).host = s.host ∧
      (grantedEnd k g rest s).answers = rest := by
  have h := scanRows_keeps (grantedStart k g rest s).rowsLeft (grantedStart k g rest s)
  refine ⟨?_, ?_, rfl, rfl, ?_, ?_, ?_⟩ <;> unfold grantedEnd
  · rw [finishCommand_cfg, h.cfg, grantedStart_cfg]
  · rw [finishCommand_cmd, h.cmd, grantedStart_cmd]
  · rw [finishCommand_geo, h.geo, grantedStart_geo]
  · rw [finishCommand_host, h.host, grantedStart_host]
  · rw [finishCommand_answers, h.answers, grantedStart_answers]

theorem grantedEnd_wf {k : Latch} {g : Geometry} {rest : List Answer} {s : State} (h : s.mem.wf) :
    (grantedEnd k g rest s).mem.wf :=
  scanRows_wf _ (s := grantedStart k g rest s) h

/-- R147: the events of a granted command after its word is taken, and where its accesses are (R47). -/
theorem grantedEnd_trace (k : Latch) (g : Geometry) (rest : List Answer) (s : State) :
    ∃ evs, (grantedEnd k g rest s).trace
        = s.trace ++ ([.captureRequest, .grant g] ++ evs ++ [.release, .done]) ∧
      (∀ e ∈ evs, e.isAccess = true) ∧
      ∀ e ∈ evs, ∃ x y, InRect k.rect g x y ∧ e.address = some (g.addr s.cfg.format x y) := by
  obtain ⟨evs, h1, h2, h3⟩ := scanRows_accesses (grantedStart k g rest s).rowsLeft (grantedStart k g rest s)
  refine ⟨evs, ?_, h2, fun e he => ?_⟩
  · unfold grantedEnd
    rw [finishCommand_trace, h1, grantedStart_trace]
    simp
  · obtain ⟨x, y, hp, ha⟩ := h3 e he
    exact ⟨x, y, (rowRun_grantedStart k g rest s x y).1 hp, ha⟩

/-- R139: a granted command visits each position of the clipped rectangle once, in scan order. -/
theorem grantedEnd_visits (k : Latch) (g : Geometry) (rest : List Answer) (s : State) :
    ∃ ps : List (Int × Int), ps.Pairwise ScanBefore ∧ (∀ p, p ∈ ps ↔ InRect k.rect g p.1 p.2) ∧
      (grantedEnd k g rest s).mem = (visitAll (grantedStart k g rest s) ps).mem ∧
      (grantedEnd k g rest s).trace = (visitAll (grantedStart k g rest s) ps).trace ++ [.release, .done] := by
  obtain ⟨ps, ho, hm, hs⟩ := scanRows_visits (grantedStart k g rest s).rowsLeft (grantedStart k g rest s)
  refine ⟨ps, ho, fun p => (hm p).trans (rowRun_grantedStart k g rest s p.1 p.2), hs.mem, ?_⟩
  unfold grantedEnd
  rw [finishCommand_trace, hs.trace]
  simp

/-- What a granted command makes of the framebuffer: one visit of each position of the clipped rectangle. -/
theorem grantedEnd_painted {k : Latch} {g : Geometry} {rest : List Answer} {s : State} (hm : s.mem.wf)
    (hn : g.columnsNonneg) (hc : g.cellsDistinct s.cfg.format) :
    Painted s.cfg k g (InRect k.rect g) s.mem (grantedEnd k g rest s).mem := by
  by_cases hy : (grantedStart k g rest s).cy < (grantedStart k g rest s).yend
  · have h := scanRows_painted (grantedStart k g rest s).rowsLeft (s := grantedStart k g rest s) hm hn hc
      (by rw [grantedStart_cy]; omega)
      (by
        unfold State.rowsLeft
        rw [grantedStart_cy, grantedStart_yend] at hy
        rw [grantedStart_cy, grantedStart_yend, grantedStart_geo]
        omega)
    have e : rowRun (grantedStart k g rest s) (grantedStart k g rest s).rowsLeft = InRect k.rect g := by
      funext x y
      exact propext (rowRun_grantedStart k g rest s x y)
    rw [e] at h
    exact h
  · have h0 : (grantedStart k g rest s).rowsLeft = 0 := by
      unfold State.rowsLeft
      omega
    have e : (grantedEnd k g rest s).mem = s.mem := by
      unfold grantedEnd
      rw [h0]
      rfl
    rw [e]
    refine Painted.refl _ _ _ _ fun x y h => ?_
    rw [grantedStart_cy, grantedStart_yend] at hy
    simp only [InRect, Latch.yInt, Latch.hInt] at h hy
    omega

/-- A byte that is at the address of no position of the clipped rectangle is unchanged. -/
theorem grantedEnd_read_other {k : Latch} {g : Geometry} {rest : List Answer} {s : State} {a : Nat}
    (h : ∀ x y, InRect k.rect g x y → g.addr s.cfg.format x y ≠ a) :
    (grantedEnd k g rest s).mem.read a = s.mem.read a :=
  scanRows_read_other _ (s := grantedStart k g rest s) fun x y hp =>
    h x y ((rowRun_grantedStart k g rest s x y).1 hp)

/-! ### Commands -/

theorem exec_eq (i : Instr) (s : State) : exec i s = runCommand i.latchOf s := by
  cases i <;> rfl

theorem latchOf_rect (i : Instr) : i.latchOf.rect = i.rectOf := by
  cases i <;> rfl

theorem latchOf_col (i : Instr) : i.latchOf.col = i.colourOf := by
  cases i <;> rfl

/-- The latch selects the pixels the command selects (R140, R146, R162). -/
theorem latchOf_selects (i : Instr) (fmt : Format) (p : Pixel) : i.latchOf.selects fmt p ↔ i.Selects fmt p := by
  cases i <;> simp [Latch.selects, Instr.latchOf, Instr.Selects, latchFill, latchReplace, latchReplaceAny]

end Sys2Proof.Machine
end

