-- ==== Sys2Proof/Laws/Busy.lean ====
section
/-! SUPPORT. What the single moves of a busy engine can do (spec 44_command_execution.md R135), and how they
make up the loops of R139: the scan from a row on is the scan from the first pixel found there. -/

namespace Sys2Proof.Machine

/-! ### Looking for the next row with a pixel -/

theorem seekRow_keeps (n : Nat) (s : State) :
    ScanKeeps s (seekRow n s) ∧ (seekRow n s).mem = s.mem ∧ (seekRow n s).trace = s.trace := by
  induction n generalizing s with
  | zero => exact ⟨ScanKeeps.refl s, rfl, rfl⟩
  | succ n ih =>
    simp only [seekRow]
    split
    · exact ⟨scanKeeps_startRow s, rfl, rfl⟩
    · obtain ⟨h1, h2, h3⟩ := ih (nextRow (startRow s))
      exact ⟨((scanKeeps_startRow s).trans (scanKeeps_nextRow _)).trans h1, h2, h3⟩

/-- Where the search ends: past the rows left, or at the first column of a row that has one to visit. -/
theorem seekRow_position (n : Nat) (s : State) :
    s.cy ≤ (seekRow n s).cy ∧ (seekRow n s).cy ≤ s.cy + n ∧
      ((seekRow n s).cy < s.cy + n →
        (seekRow n s).cx ≤ (seekRow n s).xe ∧
        (seekRow n s).cx = max s.cmd.xInt (s.geo.row (seekRow n s).cy).minX ∧
        (seekRow n s).xe = min (s.cmd.xInt + s.cmd.wInt - 1) (s.geo.row (seekRow n s).cy).maxX) := by
  induction n generalizing s with
  | zero => simp [seekRow]
  | succ n ih =>
    simp only [seekRow]
    split
    · rename_i hc
      refine ⟨le_refl _, by simp only [startRow_cy]; push_cast; omega, fun _ => ⟨hc, rfl, rfl⟩⟩
    · obtain ⟨h1, h2, h3⟩ := ih (nextRow (startRow s))
      simp only [nextRow_cy, startRow_cy] at h1 h2 h3
      refine ⟨by omega, by push_cast; omega, fun hlt => ?_⟩
      push_cast at hlt
      have := h3 (by omega)
      simpa using this

/-- The search passes only rows with no column to visit. -/
theorem seekRow_passes (n : Nat) (s : State) {y : Int} (h0 : s.cy ≤ y) (h1 : y < (seekRow n s).cy) :
    ¬ RowHasPixel s.cmd s.geo y := by
  induction n generalizing s with
  | zero =>
    simp only [seekRow] at h1
    omega
  | succ n ih =>
    simp only [seekRow] at h1
    split at h1
    · simp only [startRow_cy] at h1
      omega
    · rename_i hc
      by_cases hy : y = s.cy
      · subst hy
        exact hc
      · exact ih (nextRow (startRow s)) (by simp only [nextRow_cy, startRow_cy]; omega) h1

/-- The rest of the scan from a pixel of the current row on. -/
def scanFrom (s : State) : State :=
  let s1 := nextRow (scanCols s.colsLeft s)
  scanRows s1.rowsLeft s1

/-- The rest of the scan from where a search ended. -/
def scanOn (s : State) : State := if s.cy < s.yend then scanFrom s else s

/-- Scanning the rows left is scanning from the first pixel found in them. -/
theorem scanRows_eq_scanOn (n : Nat) (s : State) (hn : s.rowsLeft = n) :
    scanRows n s = scanOn (seekRow n s) := by
  induction n generalizing s with
  | zero =>
    unfold State.rowsLeft at hn
    show s = scanOn s
    unfold scanOn
    rw [if_neg (by omega)]
  | succ n ih =>
    unfold State.rowsLeft at hn
    simp only [scanRows, seekRow]
    split
    · rename_i hc
      have hlt : (startRow s).cy < (startRow s).yend := by
        simp only [startRow_cy, startRow_yend]
        omega
      rw [scanOn, if_pos hlt, scanFrom]
      have e : (nextRow (scanCols (startRow s).colsLeft (startRow s))).rowsLeft = n := by
        unfold State.rowsLeft
        rw [nextRow_cy, nextRow_yend, (scanCols_position _ _).1, (scanCols_keeps _ _).yend]
        simp only [startRow_cy, startRow_yend]
        omega
      simp only [e]
      rfl
    · rename_i hc
      have h0 : (startRow s).colsLeft = 0 := by
        unfold State.colsLeft
        omega
      have e : scanRow s = nextRow (startRow s) := by
        simp only [scanRow, h0, scanCols]
      rw [e]
      refine ih _ ?_
      unfold State.rowsLeft
      simp only [nextRow_cy, nextRow_yend, startRow_cy, startRow_yend]
      omega

/-- One pixel step and one advance of the position leave the rest of the scan. -/
theorem scanFrom_eq (s : State) (hc : s.cx ≤ s.xe) (hy : s.cy < s.yend) :
    scanFrom s = scanOn (advance (pixelStep s)) := by
  have e : s.colsLeft = (nextCol (pixelStep s)).colsLeft + 1 := by
    unfold State.colsLeft
    simp only [nextCol_cx, nextCol_xe, pixelStep_cx, pixelStep_xe]
    omega
  have e1 : scanFrom s =
      scanRows (nextRow (scanCols (nextCol (pixelStep s)).colsLeft (nextCol (pixelStep s)))).rowsLeft
        (nextRow (scanCols (nextCol (pixelStep s)).colsLeft (nextCol (pixelStep s)))) := by
    unfold scanFrom
    rw [e]
    rfl
  rw [e1]
  unfold advance
  simp only
  split
  · rename_i hlt
    rw [scanOn, if_pos (by simpa using hy)]
    rfl
  · rename_i hge
    have h0 : (nextCol (pixelStep s)).colsLeft = 0 := by
      unfold State.colsLeft
      omega
    rw [h0]
    simp only [scanCols]
    exact scanRows_eq_scanOn _ _ rfl

end Sys2Proof.Machine
end

