-- ==== Sys2Proof/Laws/Decode.lean ====
section
/-! SUPPORT. The fields of an encoded word (spec 30_encoding.md R51): packing puts each operand where the
decoder reads it, and a word is the packing of its fields. -/

namespace Sys2Proof

/-- The bits of a packed word, lowest field first. -/
theorem packWord_getLsbD (rect : Rect) (col : Colour) (c : Byte) (wild : BitVec 1) (op : BitVec 8) (i : Nat) :
    (packWord rect col c wild op).getLsbD i =
      if i < 8 then op.getLsbD i
      else if i < 9 then wild.getLsbD (i - 8)
      else if i < 16 then false
      else if i < 24 then c.getLsbD (i - 16)
      else if i < 32 then col.r.getLsbD (i - 24)
      else if i < 40 then col.g.getLsbD (i - 32)
      else if i < 48 then col.b.getLsbD (i - 40)
      else if i < 64 then rect.x.getLsbD (i - 48)
      else if i < 80 then rect.y.getLsbD (i - 64)
      else if i < 96 then rect.w.getLsbD (i - 80)
      else rect.h.getLsbD (i - 96) := by
  unfold packWord
  show @BitVec.getLsbD (16 + 16 + 16 + 16 + 16 + 8 + 8 + 8 + 8 + 7 + 1 + 8) _ i = _
  rw [BitVec.getLsbD_append]
  by_cases h0 : i < 8
  · rw [if_pos h0, if_pos h0]
  rw [if_neg h0, if_neg h0, BitVec.getLsbD_append]
  by_cases h1 : i < 9
  · rw [if_pos (by omega), if_pos h1]
  rw [if_neg (by omega), if_neg h1, BitVec.getLsbD_append]
  by_cases h2 : i < 16
  · rw [if_pos (by omega), if_pos h2]
    exact BitVec.getLsbD_zero
  rw [if_neg (by omega), if_neg h2, BitVec.getLsbD_append]
  by_cases h3 : i < 24
  · rw [if_pos (by omega), if_pos h3]
    congr 1
  rw [if_neg (by omega), if_neg h3, BitVec.getLsbD_append]
  by_cases h4 : i < 32
  · rw [if_pos (by omega), if_pos h4]
    congr 1
  rw [if_neg (by omega), if_neg h4, BitVec.getLsbD_append]
  by_cases h5 : i < 40
  · rw [if_pos (by omega), if_pos h5]
    congr 1
  rw [if_neg (by omega), if_neg h5, BitVec.getLsbD_append]
  by_cases h6 : i < 48
  · rw [if_pos (by omega), if_pos h6]
    congr 1
  rw [if_neg (by omega), if_neg h6, BitVec.getLsbD_append]
  by_cases h7 : i < 64
  · rw [if_pos (by omega), if_pos h7]
    congr 1
  rw [if_neg (by omega), if_neg h7, BitVec.getLsbD_append]
  by_cases h8 : i < 80
  · rw [if_pos (by omega), if_pos h8]
    congr 1
  rw [if_neg (by omega), if_neg h8, BitVec.getLsbD_append]
  by_cases h9 : i < 96
  · rw [if_pos (by omega), if_pos h9]
    congr 1
  rw [if_neg (by omega), if_neg h9, BitVec.getLsbD_append]
  by_cases h10 : i < 112
  · rw [if_pos (by omega)]
    congr 1
  rw [if_neg (by omega), BitVec.getLsbD_of_ge rect.h _ (by omega)]
  exact BitVec.getLsbD_zero

theorem wordField_getLsbD (lo n : Nat) (w : CmdWord) (i : Nat) :
    (wordField lo n w).getLsbD i = (decide (i < n) && w.getLsbD (lo + i)) := by
  simp [wordField]

theorem fieldOpcode_packWord (rect : Rect) (col : Colour) (c : Byte) (wild : BitVec 1) (op : BitVec 8) :
    fieldOpcode (packWord rect col c wild op) = op := by
  refine BitVec.eq_of_getLsbD_eq fun i hi => ?_
  rw [fieldOpcode, wordField_getLsbD, packWord_getLsbD, Nat.zero_add, if_pos hi]
  simp [hi]

theorem fieldWild_packWord (rect : Rect) (col : Colour) (c : Byte) (wild : BitVec 1) (op : BitVec 8) :
    fieldWild (packWord rect col c wild op) = wild := by
  refine BitVec.eq_of_getLsbD_eq fun i hi => ?_
  rw [fieldWild, wordField_getLsbD, packWord_getLsbD, if_neg (by omega), if_pos (by omega)]
  simp [hi]

theorem fieldRsv0_packWord (rect : Rect) (col : Colour) (c : Byte) (wild : BitVec 1) (op : BitVec 8) :
    fieldRsv0 (packWord rect col c wild op) = 0 := by
  refine BitVec.eq_of_getLsbD_eq fun i hi => ?_
  rw [fieldRsv0, wordField_getLsbD, packWord_getLsbD, if_neg (by omega), if_neg (by omega), if_pos (by omega)]
  simp

theorem fieldRsv1_packWord (rect : Rect) (col : Colour) (c : Byte) (wild : BitVec 1) (op : BitVec 8) :
    fieldRsv1 (packWord rect col c wild op) = 0 := by
  refine BitVec.eq_of_getLsbD_eq fun i hi => ?_
  rw [fieldRsv1, wordField_getLsbD, packWord_getLsbD]
  repeat rw [if_neg (by omega)]
  rw [BitVec.getLsbD_of_ge rect.h _ (by omega)]
  simp

theorem fieldFcolor_packWord (rect : Rect) (col : Colour) (c : Byte) (wild : BitVec 1) (op : BitVec 8) :
    fieldFcolor (packWord rect col c wild op) = c := by
  refine BitVec.eq_of_getLsbD_eq fun i hi => ?_
  rw [fieldFcolor, wordField_getLsbD, packWord_getLsbD, if_neg (by omega), if_neg (by omega), if_neg (by omega),
    if_pos (by omega)]
  simp [hi]

/-- One field of a packed word: the bits of `v` stand from bit `lo` on. -/
theorem wordField_eq_of_bits {n : Nat} {w : CmdWord} {lo : Nat} {v : BitVec n}
    (h : ∀ i, i < n → w.getLsbD (lo + i) = v.getLsbD i) : wordField lo n w = v := by
  refine BitVec.eq_of_getLsbD_eq fun i hi => ?_
  rw [wordField_getLsbD, h i hi]
  simp [hi]

theorem fieldColour_packWord (rect : Rect) (col : Colour) (c : Byte) (wild : BitVec 1) (op : BitVec 8) :
    fieldColour (packWord rect col c wild op) = col := by
  obtain ⟨r, g, b⟩ := col
  simp only [fieldColour, Colour.mk.injEq]
  refine ⟨?_, ?_, ?_⟩ <;> refine wordField_eq_of_bits fun i hi => ?_ <;> rw [packWord_getLsbD] <;>
    repeat' first | rw [if_neg (by omega)] | rw [if_pos (by omega)]
  all_goals simp

theorem fieldRect_packWord (rect : Rect) (col : Colour) (c : Byte) (wild : BitVec 1) (op : BitVec 8) :
    fieldRect (packWord rect col c wild op) = rect := by
  obtain ⟨x, y, w, h⟩ := rect
  simp only [fieldRect, Rect.mk.injEq]
  refine ⟨?_, ?_, ?_, ?_⟩ <;> refine wordField_eq_of_bits fun i hi => ?_ <;> rw [packWord_getLsbD] <;>
    repeat' first | rw [if_neg (by omega)] | rw [if_pos (by omega)]
  all_goals simp

/-- A word whose reserved fields are zero is the packing of its fields. -/
theorem packWord_fields {w : CmdWord} (h0 : fieldRsv0 w = 0) (h1 : fieldRsv1 w = 0) :
    packWord (fieldRect w) (fieldColour w) (fieldFcolor w) (fieldWild w) (fieldOpcode w) = w := by
  refine BitVec.eq_of_getLsbD_eq fun i hi => ?_
  rw [packWord_getLsbD]
  simp only [fieldOpcode, fieldWild, fieldFcolor, fieldColour, fieldRect, wordField_getLsbD]
  have r0 : ∀ j, j < 7 → w.getLsbD (9 + j) = false := fun j hj => by
    have := congrArg (fun v => v.getLsbD j) h0
    simp only [fieldRsv0, wordField_getLsbD, decide_eq_true hj, Bool.true_and] at this
    rw [this]
    simp
  have r1 : ∀ j, j < 16 → w.getLsbD (112 + j) = false := fun j hj => by
    have := congrArg (fun v => v.getLsbD j) h1
    simp only [fieldRsv1, wordField_getLsbD, decide_eq_true hj, Bool.true_and] at this
    rw [this]
    simp
  split
  · rename_i h
    simp [h]
  split
  · rename_i h8 h9
    rw [show i = 8 by omega]
    simp
  split
  · rename_i h9 h16
    have := r0 (i - 9) (by omega)
    rw [show 9 + (i - 9) = i by omega] at this
    exact this.symm
  iterate 7
    split
    · rename_i ha hb
      rw [decide_eq_true (by omega), Bool.true_and]
      congr 1
      omega
  rename_i ha
  by_cases hb : i < 112
  · rw [decide_eq_true (by omega), Bool.true_and]
    congr 1
    omega
  · rw [decide_eq_false (by omega), Bool.false_and]
    have := r1 (i - 112) (by omega)
    rw [show 112 + (i - 112) = i by omega] at this
    exact this.symm

end Sys2Proof
end

