-- ==== Sys2Proof/Laws/PerInstr.lean ====
section
/-! SUPPORT. Statements made for all commands, one lemma for each constructor. -/

namespace Sys2Proof.Laws.ReservedZero

open Sys2Proof

/-- R51, R56: the two reserved fields of a command's word are zero. -/
def Statement (i : Instr) : Prop := fieldRsv0 (encodeWord i) = 0 ∧ fieldRsv1 (encodeWord i) = 0

theorem fill (rect : Rect) (col : Colour) : Statement (.fill rect col) :=
  ⟨fieldRsv0_packWord .., fieldRsv1_packWord ..⟩

theorem replace (rect : Rect) (c : Byte) (col : Colour) : Statement (.replace rect c col) :=
  ⟨fieldRsv0_packWord .., fieldRsv1_packWord ..⟩

theorem replaceAny (rect : Rect) (col : Colour) : Statement (.replaceAny rect col) :=
  ⟨fieldRsv0_packWord .., fieldRsv1_packWord ..⟩

end Sys2Proof.Laws.ReservedZero
end

