-- ==== Sys2Proof/Laws/Quantizer.lean ====
section
/-! SUPPORT. The quantizer in the forms later proofs use, and the ranges of its intermediate values (spec
40_threshold_matrix.md R73, 41_quantizer.md R82, R83, R86). -/

namespace Sys2Proof.Machine

theorem threshold_lt (m : Matrix) (x y : Int) : threshold m x y < 64 := by
  unfold threshold
  exact BitVec.isLt _

/-- The lookup as a list access. -/
theorem threshold_eq_getD (m : Matrix) (x y : Int) :
    threshold m x y = (m.toList.getD (8 * (y % 8).toNat + (x % 8).toNat) 0).toNat := by
  unfold threshold
  have h : 8 * (y % 8).toNat + (x % 8).toNat < m.toList.length := by
    rw [Vector.length_toList]
    omega
  rw [List.getD, List.getElem?_eq_getElem h]
  rfl

theorem scaled_eq (v bw : Nat) : scaled v bw = v % bw * 64 / bw := rfl

theorem scaled_lt {v bw : Nat} (h : 0 < bw) : scaled v bw < 64 := by
  unfold scaled matrixRange
  have := Nat.mod_lt v h
  exact Nat.div_lt_of_lt_mul (by omega)

theorem quantize_promoted {v t bw : Nat} (top : Nat) (h : t < scaled v bw) :
    quantize v t bw top = min (v / bw + 1) top := by
  simp only [quantize, if_pos h]

theorem quantize_not_promoted {v t bw : Nat} (top : Nat) (h : scaled v bw ≤ t) :
    quantize v t bw top = min (v / bw) top := by
  simp only [quantize, if_neg (Nat.not_lt.2 h)]

/-- The two cases of step 3 of R82. -/
theorem quantize_cases (v t bw top : Nat) :
    (t < scaled v bw ∧ quantize v t bw top = min (v / bw + 1) top) ∨
      (scaled v bw ≤ t ∧ quantize v t bw top = min (v / bw) top) := by
  rcases Nat.lt_or_ge t (scaled v bw) with h | h
  · exact .inl ⟨h, quantize_promoted top h⟩
  · exact .inr ⟨h, quantize_not_promoted top h⟩

theorem quantize_le_top (v t bw top : Nat) : quantize v t bw top ≤ top := by
  rcases quantize_cases v t bw top with ⟨_, h⟩ | ⟨_, h⟩ <;> omega

theorem luma_le (col : Colour) : luma col ≤ 255 := by
  unfold luma
  have := col.r.isLt
  have := col.g.isLt
  have := col.b.isLt
  omega

end Sys2Proof.Machine
end

