-- ==== Sys2Proof/Laws/Step.lean ====
section
/-! SUPPORT. Everything a step can do, said once (spec 44_command_execution.md R135), and the small lemmas of
the moves it is made of. -/

namespace Sys2Proof.Machine

/-- The ten ways in which a step leaves a next state. -/
theorem step_next_cases {s t : State} (h : step s = .next t) :
    (s.phase = .idle ∧ s.host = [] ∧ t = s) ∨
    (∃ w rest e, s.phase = .idle ∧ s.host = .command w :: rest ∧ decodeWord s.cfg.format w = .error e ∧
      t = rejectWord w rest s) ∨
    (∃ w rest i, s.phase = .idle ∧ s.host = .command w :: rest ∧ decodeWord s.cfg.format w = .ok i ∧
      runCommand i.latchOf (takeCommand w rest s) = .next t) ∨
    (∃ a v rest, s.phase = .idle ∧ s.host = .store a v :: rest ∧
      t = { s with host := rest, mem := s.mem.write a v }) ∨
    (∃ rest, s.phase = .idle ∧ s.host = .reset :: rest ∧ t = resetEngine { s with host := rest }) ∨
    (s.phase = .req ∧ s.answers = [] ∧ t = s) ∨
    (∃ rest, s.phase = .req ∧ s.answers = .deny :: rest ∧ t = denyCapture { s with answers := rest }) ∨
    (∃ g rest, s.phase = .req ∧ s.answers = .grant g :: rest ∧ g.wf s.cfg.format ∧
      t = enterScan g.geo { s with answers := rest }) ∨
    (s.phase = .scan ∧ s.held = true ∧ s.positionOk = true ∧ t = choosePhase (advance (pixelStep s))) ∨
    (s.phase = .rel ∧ s.held = true ∧ t = finishCommand s) := by
  unfold step nextAction idleAction at h
  cases hp : s.phase <;> simp only [hp] at h
  · cases hh : s.host with
    | nil =>
      simp only [hh] at h
      cases h
      exact .inl ⟨rfl, rfl, rfl⟩
    | cons mv rest =>
      cases mv with
      | command w =>
        simp only [hh] at h
        cases hd : decodeWord s.cfg.format w with
        | error e =>
          simp only [hd] at h
          cases h
          exact .inr (.inl ⟨w, rest, e, rfl, rfl, hd, rfl⟩)
        | ok i =>
          simp only [hd, exec_eq] at h
          exact .inr (.inr (.inl ⟨w, rest, i, rfl, rfl, hd, h⟩))
      | store a v =>
        simp only [hh] at h
        cases h
        exact .inr (.inr (.inr (.inl ⟨a, v, rest, rfl, rfl, rfl⟩)))
      | reset =>
        simp only [hh] at h
        cases h
        exact .inr (.inr (.inr (.inr (.inl ⟨rest, rfl, rfl, rfl⟩))))
  · simp only [busyMove, hp] at h
    cases ha : s.answers with
    | nil =>
      simp only [ha] at h
      cases h
      exact .inr (.inr (.inr (.inr (.inr (.inl ⟨rfl, rfl, rfl⟩)))))
    | cons a rest =>
      cases a with
      | deny =>
        simp only [ha] at h
        cases h
        exact .inr (.inr (.inr (.inr (.inr (.inr (.inl ⟨rest, rfl, rfl, rfl⟩))))))
      | grant g =>
        simp only [ha] at h
        split at h
        · rename_i hg
          cases h
          exact .inr (.inr (.inr (.inr (.inr (.inr (.inr (.inl
            ⟨g, rest, rfl, rfl, Grant.ok_iff.1 hg, rfl⟩)))))))
        · cases h
  · simp only [busyMove, hp] at h
    split at h
    · cases h
    · rename_i hh
      split at h
      · rename_i hk
        cases h
        exact .inr (.inr (.inr (.inr (.inr (.inr (.inr (.inr (.inl
          ⟨rfl, by simpa using hh, hk, rfl⟩))))))))
      · cases h
  · simp only [busyMove, hp] at h
    split at h
    · cases h
    · rename_i hh
      cases h
      exact .inr (.inr (.inr (.inr (.inr (.inr (.inr (.inr (.inr ⟨rfl, by simpa using hh, rfl⟩))))))))

theorem step_command {s : State} {w : CmdWord} {rest : List HostMove} {i : Instr} (hp : s.phase = .idle)
    (hh : s.host = .command w :: rest) (hd : decodeWord s.cfg.format w = .ok i) :
    step s = runCommand i.latchOf (takeCommand w rest s) := by
  simp only [step, nextAction, hp, idleAction, hh, hd, exec_eq]

theorem step_scan {s : State} (hp : s.phase = .scan) (hh : s.held = true) (hk : s.positionOk = true) :
    step s = .next (choosePhase (advance (pixelStep s))) := by
  simp [step, nextAction, busyMove, hp, hh, hk]

theorem step_rel {s : State} (hp : s.phase = .rel) (hh : s.held = true) : step s = .next (finishCommand s) := by
  simp [step, nextAction, busyMove, hp, hh]

theorem step_grant {s : State} {g : Grant} {rest : List Answer} (hp : s.phase = .req)
    (ha : s.answers = .grant g :: rest) (hg : g.wf s.cfg.format) :
    step s = .next (enterScan g.geo { s with answers := rest }) := by
  simp only [step, nextAction, busyMove, hp, ha]
  exact if_pos (Grant.ok_iff.2 hg)

theorem step_deny {s : State} {rest : List Answer} (hp : s.phase = .req) (ha : s.answers = .deny :: rest) :
    step s = .next (denyCapture { s with answers := rest }) := by
  simp only [step, nextAction, busyMove, hp, ha]

/-! ### The position after a move -/

/-- Where a search over all the rows left ends: at a pixel that is due, or past the last row. -/
theorem seekRow_all_position {s : State} (h : s.cy ≤ s.yend) :
    s.cy ≤ (seekRow s.rowsLeft s).cy ∧ (seekRow s.rowsLeft s).cy ≤ s.yend ∧
      ((seekRow s.rowsLeft s).cy < s.yend →
        (seekRow s.rowsLeft s).cx ≤ (seekRow s.rowsLeft s).xe ∧
        (seekRow s.rowsLeft s).cx = max s.cmd.xInt (s.geo.row (seekRow s.rowsLeft s).cy).minX ∧
        (seekRow s.rowsLeft s).xe =
          min (s.cmd.xInt + s.cmd.wInt - 1) (s.geo.row (seekRow s.rowsLeft s).cy).maxX) := by
  have e : s.cy + (s.rowsLeft : Int) = s.yend := by
    unfold State.rowsLeft
    omega
  have := seekRow_position s.rowsLeft s
  rw [e] at this
  exact this

/-- The search ends at the first row left that has a pixel to visit. -/
theorem seekRow_first {s : State} {y : Int} (h0 : s.cy ≤ y) (h1 : y < s.yend) (hp : RowHasPixel s.cmd s.geo y)
    (hn : ∀ z, s.cy ≤ z → z < y → ¬ RowHasPixel s.cmd s.geo z) :
    (seekRow s.rowsLeft s).cy = y ∧
      (seekRow s.rowsLeft s).cx = (clipCols s.cmd.xInt s.cmd.wInt (s.geo.row y)).1 ∧
      (seekRow s.rowsLeft s).xe = (clipCols s.cmd.xInt s.cmd.wInt (s.geo.row y)).2 := by
  obtain ⟨p1, p2, p3⟩ := seekRow_all_position (s := s) (by omega)
  have hle : (seekRow s.rowsLeft s).cy ≤ y := by
    by_contra hc
    exact seekRow_passes s.rowsLeft s h0 (by omega) hp
  obtain ⟨q1, q2, q3⟩ := p3 (by omega)
  have e : (seekRow s.rowsLeft s).cy = y := by
    by_contra hc
    refine hn (seekRow s.rowsLeft s).cy p1 (by omega) ?_
    rw [q2, q3] at q1
    exact q1
  rw [e] at q2 q3
  exact ⟨e, q2, q3⟩

/-- The search ends past the last row where no row left has a pixel to visit. -/
theorem seekRow_none {s : State} (h : s.cy ≤ s.yend)
    (hn : ∀ z, s.cy ≤ z → z < s.yend → ¬ RowHasPixel s.cmd s.geo z) : (seekRow s.rowsLeft s).cy = s.yend := by
  obtain ⟨p1, p2, p3⟩ := seekRow_all_position h
  by_contra hc
  obtain ⟨q1, q2, q3⟩ := p3 (by omega)
  refine hn (seekRow s.rowsLeft s).cy p1 (by omega) ?_
  rw [q2, q3] at q1
  exact q1

theorem advance_keeps (s : State) :
    ScanKeeps s (advance s) ∧ (advance s).mem = s.mem ∧ (advance s).trace = s.trace := by
  unfold advance
  simp only
  split
  · exact ⟨scanKeeps_nextCol s, rfl, rfl⟩
  · obtain ⟨h1, h2, h3⟩ := seekRow_keeps (nextRow (nextCol s)).rowsLeft (nextRow (nextCol s))
    exact ⟨((scanKeeps_nextCol s).trans (scanKeeps_nextRow _)).trans h1, h2, h3⟩

/-! ### Runs -/

theorem run_zero (s : State) : Host.Core.run core 0 s = .next s := rfl

theorem run_succ {s t : State} (n : Nat) (h : step s = .next t) :
    Host.Core.run core (n + 1) s = Host.Core.run core n t := by
  have h' : core.step s = .next t := h
  simp only [Host.Core.run, h']

end Sys2Proof.Machine
end

