-- ==== Sys2Proof/Tests/Slice0.lean ====
section
/-! SUPPORT. Tests of the model. Expected results are the spec's worked examples and vectors (named in each
comment) or hand calculation from its rules; the witnesses at the end meet the hypotheses of the
statements in Certificates/Slice0/Obligations.lean. -/

namespace Sys2Proof.Tests

open Sys2Proof Sys2Proof.Machine

/-! ### Well-formedness: R56, the one check and a term it refuses -/

theorem test_wf_refuses_mono_filter_two : Instr.wf .mono (.replace ⟨0, 0, 16, 8⟩ 2 ⟨0, 0, 0⟩) = false := by decide
theorem test_wf_accepts_mono_filter_one : Instr.wf .mono (.replace ⟨0, 0, 16, 8⟩ 1 ⟨0, 0, 0⟩) = true := by decide
theorem test_wf_accepts_color_filter_two : Instr.wf .color (.replace ⟨0, 0, 16, 8⟩ 2 ⟨0, 0, 0⟩) = true := by decide

/-- R71(b): a matrix with a value twice is refused. -/
theorem test_config_refuses_constant_matrix :
    ¬ Config.wf { format := .mono, bwMono := .bw128, matrix := Vector.replicate 64 5 } := by decide

/-- R35(a), (b), (c): a grant that begins left of column 0, one whose storage is too short, and one whose two
rows share a byte are refused. -/
theorem test_grant_refuses_negative_column :
    Grant.ok .color { geo := ⟨[{ base := 8, minX := -1, maxX := 3 }]⟩, storage := [{ base := 0, len := 64 }] }
      = false := by decide
theorem test_grant_refuses_missing_storage :
    Grant.ok .color { geo := ⟨[{ base := 8, minX := 0, maxX := 3 }]⟩, storage := [{ base := 8, len := 3 }] }
      = false := by decide
theorem test_grant_refuses_shared_byte :
    Grant.ok .color { geo := ⟨[{ base := 0, minX := 0, maxX := 3 }, { base := 3, minX := 0, maxX := 3 }]⟩,
                      storage := [{ base := 0, len := 64 }] } = false := by decide
/-- In `MONO` two rows may share a byte where their visible bits differ (R35(c), R35(d)). -/
theorem test_grant_accepts_shared_mono_byte :
    Grant.ok .mono { geo := ⟨[{ base := 0, minX := 0, maxX := 3 }, { base := 0, minX := 4, maxX := 7 }]⟩,
                     storage := [{ base := 0, len := 1 }] } = true := by decide

/-! ### Decoding: words written out from R51, and the words of 95_test_vectors.md -/

/-- `RSV1 H W Y X B G R FCOLOR RSV0 WILD OPCODE`, each field in binary: FILL -1, 2, 3, 4, 5, 6, 7. -/
theorem test_decode_fill_bits :
    decodeWord .mono
      (0b0000000000000000#16 ++ 0b0000000000000100#16 ++ 0b0000000000000011#16 ++ 0b0000000000000010#16 ++
        0b1111111111111111#16 ++ 0b00000111#8 ++ 0b00000110#8 ++ 0b00000101#8 ++ 0b00000000#8 ++
        0b0000000#7 ++ 0b0#1 ++ 0b00000001#8)
      = .ok (.fill ⟨-1, 2, 3, 4⟩ ⟨5, 6, 7⟩) := by decide
/-- REPLACE 1, -2, 3, -4, #A5, 9, 8, 7. -/
theorem test_decode_replace_bits :
    decodeWord .color
      (0b0000000000000000#16 ++ 0b1111111111111100#16 ++ 0b0000000000000011#16 ++ 0b1111111111111110#16 ++
        0b0000000000000001#16 ++ 0b00000111#8 ++ 0b00001000#8 ++ 0b00001001#8 ++ 0b10100101#8 ++
        0b0000000#7 ++ 0b0#1 ++ 0b00000010#8)
      = .ok (.replace ⟨1, -2, 3, -4⟩ 0xA5 ⟨9, 8, 7⟩) := by decide
/-- REPLACE.ANY 3, 4, 2, 10, 255, 255, 255 (program C, command C2). -/
theorem test_decode_replaceAny_word :
    decodeWord .mono 0x0000000A000200040003FFFFFF000102 = .ok (.replaceAny ⟨3, 4, 2, 10⟩ ⟨255, 255, 255⟩) := by decide
/-- 95_test_vectors.md 2.4. -/
theorem test_decode_extreme_fields :
    decodeWord .mono 0x00007FFF7FFF80008000FFFFFF000001
      = .ok (.fill ⟨-32768, -32768, 32767, 32767⟩ ⟨255, 255, 255⟩) := by decide
theorem test_decode_rejects_rsv0 : decodeWord .color 0x00000000000000000000000000000201 = .error .rsv0 := by decide
theorem test_decode_rejects_rsv1 : decodeWord .color 0x00010000000000000000000000000001 = .error .rsv1 := by decide
theorem test_decode_rejects_fill_fcolor :
    decodeWord .mono 0x00000000000000000000000000010001 = .error .fillFcolor := by decide
theorem test_decode_rejects_opcode_3 : decodeWord .mono 0x00000000000000000000000000000003 = .error .opcode := by decide
theorem test_decode_filter_ff_by_format :
    decodeWord .color 0x00000000000000000000000000FF0002 = .ok (.replace ⟨0, 0, 0, 0⟩ 0xFF ⟨0, 0, 0⟩) ∧
      decodeWord .mono 0x00000000000000000000000000FF0002 = .error .monoFcolor := by decide
theorem test_decodeTableWord_rows :
    decodeTableWord 128 0x01 = some (.fill ⟨0, 0, 0, 0⟩ ⟨0, 0, 0⟩) ∧
      decodeTableWord 128 0x02 = some (.replace ⟨0, 0, 0, 0⟩ 0 ⟨0, 0, 0⟩) ∧
      decodeTableWord 128 0x102 = some (.replaceAny ⟨0, 0, 0, 0⟩ ⟨0, 0, 0⟩) := by decide
/-- R62, the encoder on the third worked encoding. -/
theorem test_encode_replace :
    encodeWord (.replace ⟨-2, -1, 20, 4⟩ 0xFF ⟨255, 128, 0⟩) = 0x000000040014FFFFFFFE0080FFFF0002 := by decide

/-! ### The threshold matrix, R78 and 95_test_vectors.md 2.1 -/

theorem test_threshold_vectors :
    [threshold defaultMatrix 1 0, threshold defaultMatrix 0 1, threshold defaultMatrix 143 167,
      threshold defaultMatrix 13 10, threshold defaultMatrix 5 2, threshold defaultMatrix 0 7,
      threshold defaultMatrix 32767 32767] = [32, 48, 21, 46, 46, 63, 21] := by decide

/-! ### The quantizer, R93 and 95_test_vectors.md 2.2 -/

theorem test_quantize_colour_vectors :
    [quantize 1 0 64 3, quantize 1 1 64 3, quantize 63 63 64 3, quantize 100 32 64 3, quantize 191 62 64 3,
      quantize 191 63 64 3, quantize 255 0 64 3] = [1, 0, 0, 2, 3, 2, 3] := by decide
theorem test_quantize_mono_vectors :
    [quantize 127 63 128 1, quantize 127 62 128 1, quantize 128 63 128 1, quantize 255 0 128 1, quantize 3 0 128 1,
      quantize 1 0 128 1, quantize 255 63 256 1, quantize 4 0 256 1] = [0, 1, 1, 1, 1, 0, 0, 1] := by decide
theorem test_luma_vectors :
    [luma ⟨255, 0, 0⟩, luma ⟨0, 255, 0⟩, luma ⟨0, 0, 255⟩, luma ⟨10, 20, 30⟩, luma ⟨200, 100, 50⟩]
      = [95, 127, 31, 17, 131] := by decide
/-- 95_test_vectors.md 2.2, whole pixels: `(0, 7)` and `(1, 0)`. -/
theorem test_pixelColor_vectors :
    pixelColor defaultConfig ⟨63, 127, 191⟩ 0 7 = 0xC6 ∧ pixelColor defaultConfig ⟨255, 128, 0⟩ 1 0 = 0xF8 := by decide

/-- R88 (C1): of a tile filled with grey, 32 pixels are on for 64 with `BW_MONO = 128` and for 128 with 256, all 64
for 128 with 128. -/
theorem test_grey_tile_counts :
    let count (bw : BwMono) (v : Byte) :=
      ((tilePositions 0 0).filter fun p => pixelMono { defaultConfig with bwMono := bw } ⟨v, v, v⟩ p.1 p.2).length
    (count .bw128 64, count .bw256 128, count .bw128 128) = (32, 32, 64) := by decide

/-! ### Clipping: rows of R108 and of 95_test_vectors.md 2.3 (H = 8, columns 0..15) -/

theorem test_clipRows_vectors :
    [clipRows 1 3 8, clipRows (-10) 5 8, clipRows (-3) 5 8, clipRows 8 4 8, clipRows 100 4 8, clipRows (-4) 100 8,
      clipRows 3 (-2) 8, clipRows (-32768) 32767 8, clipRows 32767 32767 8, clipRows (-32768) (-32768) 8]
      = [(1, 4), (0, -5), (0, 2), (8, 8), (100, 8), (0, 8), (3, 1), (0, -1), (32767, 8), (0, -65536)] := by decide
theorem test_clipCols_vectors :
    [clipCols (-3) 5 ⟨0, 0, 15⟩, clipCols (-9) 5 ⟨0, 0, 15⟩, clipCols 14 5 ⟨0, 0, 15⟩, clipCols 3 0 ⟨0, 0, 15⟩,
      clipCols (-32768) (-32768) ⟨0, 0, 15⟩, clipCols 32767 32767 ⟨0, 0, 15⟩]
      = [(0, 1), (0, -5), (14, 15), (3, 2), (0, -65537), (32767, 15)] := by decide

/-! ### Commands -/

/-- An idle engine of a given build whose next capture is granted with the given rows, all of the first 64
bytes being storage, and whose framebuffer begins with the given bytes. -/
def ready (fmt : Format) (rows : List RowGeo) (bytes : List Byte) : State :=
  { State.resetOf { defaultConfig with format := fmt } with
    mem := (bytes.zipIdx).foldl (fun m p => m.write p.2 p.1) []
    answers := [.grant { geo := ⟨rows⟩, storage := [{ base := 0, len := 64 }] }] }

/-- The first `n` bytes of the framebuffer and the `MEM` accesses of a state a step leaves. -/
def seen (n : Nat) : Host.Outcome State Fault Refusal → List Byte × List Event
  | .next t => ((List.range n).map t.mem.read, t.trace.filter Event.isAccess)
  | _ => ([], [])

/-- V1 of 95_test_vectors.md 2.5: FILL in `COLOR` writes and does not read. -/
theorem test_fill_color :
    seen 4 (exec (.fill ⟨0, 0, 4, 1⟩ ⟨255, 128, 0⟩) (ready .color [⟨0, 0, 3⟩] [0xC0, 0xFF, 0xFF, 0xC0]))
      = ([0xF8, 0xF8, 0xF8, 0xF8],
         [.memWrite 0 0xF8, .memWrite 1 0xF8, .memWrite 2 0xF8, .memWrite 3 0xF8]) := by decide
/-- V2: FILL in `MONO` on part of a byte. -/
theorem test_fill_mono :
    seen 1 (exec (.fill ⟨1, 0, 3, 1⟩ ⟨64, 64, 64⟩) (ready .mono [⟨0, 0, 7⟩] [0xA0]))
      = ([0xA4],
         [.memRead 0 0xA0, .memWrite 0 0xA0, .memRead 0 0xA0, .memWrite 0 0xA4, .memRead 0 0xA4, .memWrite 0 0xA4]) := by
  decide
/-- V1: REPLACE in `COLOR` reads every pixel and writes the matching ones. -/
theorem test_replace_color :
    seen 4 (exec (.replace ⟨0, 0, 4, 1⟩ 0xFF ⟨255, 128, 0⟩) (ready .color [⟨0, 0, 3⟩] [0xC0, 0xFF, 0xFF, 0xC0]))
      = ([0xC0, 0xF8, 0xF8, 0xC0],
         [.memRead 0 0xC0, .memRead 1 0xFF, .memWrite 1 0xF8, .memRead 2 0xFF, .memWrite 2 0xF8, .memRead 3 0xC0]) := by
  decide
/-- R128 (vector V3): REPLACE in `MONO` over columns 2..9 of two bytes. -/
theorem test_replace_mono :
    (seen 2 (exec (.replace ⟨2, 0, 8, 1⟩ 1 ⟨64, 64, 64⟩) (ready .mono [⟨0, 0, 15⟩] [0x0F, 0xFF]))).1
      = [0x07, 0xFD] := by decide
/-- V1: REPLACE.ANY in `COLOR` reads and writes every pixel. -/
theorem test_replaceAny_color :
    seen 4 (exec (.replaceAny ⟨0, 0, 4, 1⟩ ⟨255, 128, 0⟩) (ready .color [⟨0, 0, 3⟩] [0xC0, 0xFF, 0xFF, 0xC0]))
      = ([0xF8, 0xF8, 0xF8, 0xF8],
         [.memRead 0 0xC0, .memWrite 0 0xF8, .memRead 1 0xFF, .memWrite 1 0xF8, .memRead 2 0xFF, .memWrite 2 0xF8,
          .memRead 3 0xC0, .memWrite 3 0xF8]) := by decide
/-- Program D, command D1: rows narrower than a byte, bits of no pixel kept. -/
theorem test_replaceAny_mono_narrow_rows :
    (seen 3 (exec (.replaceAny ⟨-5, -5, 100, 100⟩ ⟨64, 64, 64⟩)
      (ready .mono [⟨0, 2, 5⟩, ⟨1, 0, 7⟩, ⟨2, 3, 4⟩] [0xFF, 0x00, 0xA5]))).1 = [0xD7, 0xAA, 0xB5] := by decide

/-! ### Steps -/

/-- The machine right after reset runs each row's word as its first command (R191). -/
theorem test_first_command_after_reset :
    [0x01, 0x02, 0x102].all (fun w =>
      match step (State.reset.withFetchWord 128 w) with
      | .next t => t.phase == .idle && t.trace.contains .done
      | _ => false) = true := by decide
/-- With no host move to come the engine waits (R184). -/
theorem test_reset_waits :
    (match step State.reset with
      | .next t => t == State.reset
      | _ => false) = true := by decide
/-- 95_test_vectors.md 2.6, first line: an invalid word. -/
theorem test_invalid_word_is_taken :
    (match step (State.reset.withFetchWord 128 0) with
      | .next t => t == { State.reset with answers := [.grant smallGrant], trace := [.take 0, .done] }
      | _ => false) = true := by decide
/-- A busy engine in phase `SCAN` makes one pixel step and moves on; column 3 is the last (R135). -/
theorem test_scan_moves_to_release :
    (match step { ready .color [⟨0, 0, 3⟩] [] with
        phase := .scan, held := true, geo := ⟨[⟨0, 0, 3⟩]⟩, yend := 1, cx := 3, xe := 3,
        cmd := latchFill ⟨0, 0, 4, 1⟩ ⟨255, 128, 0⟩ } with
      | .next t => (t.phase, t.mem) == (.rel, [(3, 0xF8)])
      | _ => false) = true := by decide

/-! ### Witnesses: for each statement with hypotheses, values that meet all of them together -/

theorem witness_DecodeOfEncodeIsTheCommand :
    Instr.wf .mono (.replace ⟨0, 0, 16, 8⟩ 1 ⟨0, 0, 0⟩) = true ∧ Instr.wf .color (.fill ⟨-1, -1, 2, 2⟩ ⟨9, 9, 9⟩) = true := by
  decide
theorem witness_EncodeOfDecodeIsTheWord :
    decodeWord .mono 0x00000008001000000000000000010002 = .ok (.replace ⟨0, 0, 16, 8⟩ 0x01 ⟨0, 0, 0⟩) := by decide
/-- Both sides of the case list: a word of each listed kind, and a word of no kind. -/
theorem witness_InvalidWordsAreExactlyTheListed :
    [0x00, 0x0200, 0x101, 0x10001, 0x10102, 0x20002, 0x10002].map
        (fun w : Nat => (decodeWord .mono (BitVec.ofNat 128 w)).toOption.isSome)
      = [false, false, false, false, false, false, true] ∧
    (decodeWord .mono 0x00010000000000000000000000000001).toOption.isSome = false := by decide
theorem witness_MatchAndMaskSelectTheCommands :
    (0x00000008000800000000808080000001 : CmdWord) &&& 0xFFFF0000000000000000000000FFFFFF = 0x01 ∧
    (0x00000008001000000000000000010002 : CmdWord) &&& 0xFFFF000000000000000000000000FFFF = 0x02 ∧
    (fieldFcolor 0x00000008001000000000000000010002).toNat ≤ 1 ∧
    (0x000000010005000200031E140A000102 : CmdWord) &&& 0xFFFF0000000000000000000000FFFFFF = 0x102 := by decide
/-- The last bit of the last byte, a word that decodes and one that does not. -/
theorem witness_ByteTransportIsLeastSignificantFirst :
    ((15 : Nat) < 16 ∧ (7 : Nat) < 8) ∧ decodeWord .color 1 = .ok (.fill ⟨0, 0, 0, 0⟩ ⟨0, 0, 0⟩) ∧
      decodeWord .color 0 = .error .opcode := by decide
theorem witness_ThresholdIsTiledByEight : (-1 : Int) % 8 = 7 % 8 ∧ (-16 : Int) % 8 = 0 % 8 := by decide
/-- Both outcomes of the comparison at its boundary, and both ends of the ranges. -/
theorem witness_QuantizerRangesAndCases :
    ((255 : Nat) ≤ 255 ∧ (62 : Nat) ≤ 63 ∧ 62 < scaled 255 64) ∧ (63 : Nat) ≤ 63 ∧ scaled 255 64 ≤ 63 := by decide
theorem witness_ColourQuantizerSimplified :
    (0 : Nat) ≤ 255 ∧ (192 : Nat) ≤ 192 ∧ (192 : Nat) = 64 * 3 ∧ ((1 : Nat) ≤ 191 ∧ 191 ≤ 191 ∧ 191 % 64 ≠ 0) := by decide
theorem witness_MonochromeQuantizerSimplified :
    defaultConfig.bwMono = .bw128 ∧ { defaultConfig with bwMono := .bw256 }.bwMono = .bw256 := by decide
theorem witness_QuantizerIsMonotone :
    (63 : Nat) ≤ 64 ∧ (0 : Nat) ≤ 63 ∧ (⟨0, 0, 0⟩ : Colour).r.toNat ≤ (⟨255, 255, 255⟩ : Colour).r.toNat := by decide
theorem witness_cfg_wf : defaultConfig.wf := by decide
theorem witness_TilePromotesScaledManyPixels : defaultConfig.wf ∧ ((64 : Nat) = 64 ∨ (64 : Nat) = 128 ∨ (64 : Nat) = 256) :=
  ⟨witness_cfg_wf, by decide⟩
/-- A row range that is not empty, and the four ways to an empty one, at their boundaries. -/
theorem witness_RowClippingIsIntersection :
    (0 : Int) ≤ 8 ∧ (clipRows 7 1 8).1 < (clipRows 7 1 8).2 ∧ ((0 : Int) ≤ 0 ∧ (clipRows 3 0 8).2 ≤ (clipRows 3 0 8).1) ∧
      ((8 : Int) ≤ 8 ∧ (clipRows 8 1 8).2 ≤ (clipRows 8 1 8).1) ∧
      ((-3 : Int) + 3 ≤ 0 ∧ (clipRows (-3) 3 8).2 ≤ (clipRows (-3) 3 8).1) ∧
      (clipRows 0 5 0).2 ≤ (clipRows 0 5 0).1 := by decide

/-- One row of four columns from address 0. -/
abbrev rowOfFour : List RowGeo := [⟨0, 0, 3⟩]
/-- The grant a `ready` state is given. -/
abbrev grantOf (rows : List RowGeo) : Grant := { geo := ⟨rows⟩, storage := [{ base := 0, len := 64 }] }
/-- A colour engine that is ready to be granted one row, four of whose bytes are set. -/
abbrev readyColor : State := ready .color rowOfFour [0xC0, 0xFF, 0xFF, 0xC0]
/-- A monochrome engine that is ready to be granted eight rows of eight columns, one byte each. -/
abbrev readyMono : State := ready .mono ((List.range 8).map fun n => ⟨n, 0, 7⟩) [0xA0]
abbrev monoRows : List RowGeo := (List.range 8).map fun n => ⟨n, 0, 7⟩
/-- The engine that is about to be denied. -/
abbrev readyDenied : State := { readyColor with answers := [.deny] }
/-- Engines with a host move to come. -/
abbrev withHost (mv : HostMove) : State := { readyColor with host := [mv] }

theorem witness_ReadyToGrant_color : ReadyToGrant readyColor (grantOf rowOfFour) [] := ⟨rfl, rfl, by decide⟩
theorem witness_ReadyToGrant_mono : ReadyToGrant readyMono (grantOf monoRows) [] := ⟨rfl, rfl, by decide⟩
theorem witness_ReadyToDeny : ReadyToDeny readyDenied [] := ⟨rfl, rfl⟩
theorem witness_mem_wf : readyColor.mem.wf ∧ readyMono.mem.wf := by decide

theorem witness_ClippedPositionsAreTheVisibleRequested :
    (grantOf rowOfFour).geo.columnsNonneg ∧ (grantOf rowOfFour).geo.Visible 3 0 := by
  unfold Geometry.Visible
  decide
theorem witness_BitStoreReplacesOneBit : readyMono.mem.wf ∧ (7 : Nat) < 8 ∧ (1 : Nat) ≠ readyMono.curAddr := by decide
/-- The four premises, each met by a state. -/
theorem witness_PixelStepAccesses :
    ({ readyColor with cmd := latchFill ⟨0, 0, 4, 1⟩ ⟨1, 2, 3⟩ }.cmd.op = .fill ∧ readyColor.cfg.format = .color) ∧
    ({ readyMono with cmd := latchReplace ⟨0, 0, 4, 1⟩ 1 ⟨1, 2, 3⟩ }.cmd.op = .replace ∧
      readyMono.cfg.format = .mono) := by decide
/-- A bit of another pixel of the byte, and two visible positions. -/
theorem witness_PixelStepChangesOnlyItsPixel :
    let s : State := { readyMono with geo := ⟨monoRows⟩, cx := 7, cy := 7 }
    s.mem.wf ∧ ¬ s.geo.owns s.cfg.format s.cx s.cy 7 6 ∧ s.geo.columnsNonneg ∧ s.geo.cellsDistinct s.cfg.format ∧
      s.geo.Visible s.cx s.cy ∧ s.geo.Visible 6 7 ∧ ((6 : Int), (7 : Int)) ≠ (s.cx, s.cy) :=
  ⟨by decide, fun h => absurd (And.right h) (by decide), by decide, by decide, by unfold Geometry.Visible; decide,
    by unfold Geometry.Visible; decide, by decide⟩
theorem witness_ScanOrderDoesNotMatter :
    let s : State := { readyMono with geo := ⟨monoRows⟩ }
    let ps : List (Int × Int) := [(0, 0), (7, 7)]
    s.mem.wf ∧ s.geo.columnsNonneg ∧ s.geo.cellsDistinct s.cfg.format ∧
      (∀ p ∈ ps, s.geo.Visible p.1 p.2) ∧ ps.Nodup ∧ ps.Perm [(7, 7), (0, 0)] := by
  unfold Geometry.Visible
  decide

/-- The granted, and the denied case of `FILL`, `REPLACE` and `REPLACE.ANY`, with a position in the rectangle,
one outside it, and pixels that hold the filter colour and that do not. -/
theorem witness_FillPaintsTheClippedRectangle :
    readyColor.phase = .idle ∧ readyColor.mem.wf ∧ readyColor.answers = [.grant (grantOf rowOfFour)] ∧
      (grantOf rowOfFour).wf readyColor.cfg.format ∧ readyDenied.answers = [.deny] ∧
      InRect ⟨0, 0, 2, 1⟩ ⟨rowOfFour⟩ 1 0 ∧ ¬ InRect ⟨0, 0, 2, 1⟩ ⟨rowOfFour⟩ 2 0 := by
  unfold InRect
  decide
theorem witness_ReplaceRecoloursTheMatchingPixels :
    InRect ⟨0, 0, 4, 1⟩ ⟨rowOfFour⟩ 1 0 ∧ pixelAt .color ⟨rowOfFour⟩ readyColor.mem 1 0 = packedFilter .color 0xFF ∧
      pixelAt .color ⟨rowOfFour⟩ readyColor.mem 0 0 ≠ packedFilter .color 0xFF := by
  unfold InRect
  decide
theorem witness_ReplaceAnyPaintsTheClippedRectangle :
    readyMono.phase = .idle ∧ readyMono.mem.wf ∧ readyMono.answers = [.grant (grantOf monoRows)] ∧
      (grantOf monoRows).wf readyMono.cfg.format := by decide
/-- A step that takes an invalid word. -/
theorem witness_CommandIsTheBigStepFunction :
    (withHost (.command 0)).phase = .idle ∧ decodeWord .color 0 = .error .opcode ∧
      step (withHost (.command 0)) = .next (rejectWord 0 [] (withHost (.command 0))) := ⟨rfl, rfl, rfl⟩
theorem witness_EmptyRectangleTouchesNothing :
    ∀ x y, ¬ InRect (Instr.rectOf (.fill ⟨0, 0, 0, 1⟩ ⟨1, 2, 3⟩)) (grantOf rowOfFour).geo x y := by
  intro x y h
  have h1 : (0 : Int) ≤ x := h.2.2.2.2.2.2.1
  have h2 : x < (0 : Int) + 0 := h.2.2.2.2.2.2.2
  omega
theorem witness_UnansweredRequestWaits : State.reset.phase = .idle ∧ State.reset.answers = [] := ⟨rfl, rfl⟩

/-- The next state of a step, of an engine that is given a word. -/
theorem step_granted_word :
    step (withHost (.command 1)) = .next (grantedEnd (latchFill ⟨0, 0, 0, 0⟩ ⟨0, 0, 0⟩) ⟨rowOfFour⟩ []
      (takeCommand 1 [] (withHost (.command 1)))) :=
  (step_command (i := .fill ⟨0, 0, 0, 0⟩ ⟨0, 0, 0⟩) rfl rfl (by decide)).trans
    (runCommand_granted (g := grantOf rowOfFour) ⟨rfl, rfl, by decide⟩)
/-- A granted word whose command completes; a denied one; an invalid one is above. -/
theorem witness_EventsOfOneCommandWord :
    (∃ t, step (withHost (.command 1)) = .next t ∧ t.phase = .idle) ∧
      ∃ t, step { withHost (.command 1) with answers := [.deny] } = .next t ∧ t.phase = .idle :=
  ⟨⟨_, step_granted_word, rfl⟩,
    _, (step_command (i := .fill ⟨0, 0, 0, 0⟩ ⟨0, 0, 0⟩) rfl rfl (by decide)).trans (runCommand_denied ⟨rfl, rfl⟩), rfl⟩
/-- An address outside the storage, and a bit that belongs to no position. -/
theorem witness_CommandStaysInsideTheGrantedStorage :
    ¬ inStorage (grantOf rowOfFour).storage 64 ∧ (7 : Nat) < 8 := by decide

/-- An engine in each busy phase. -/
abbrev inReq : State := { readyColor with phase := .req, trace := [.take 1, .captureRequest] }
abbrev inScan : State :=
  { ready .color rowOfFour [] with
    phase := .scan, held := true, geo := ⟨rowOfFour⟩, yend := 1, cx := 3, xe := 3,
    cmd := latchFill ⟨0, 0, 4, 1⟩ ⟨255, 128, 0⟩
    trace := [.take 1, .captureRequest, .grant ⟨rowOfFour⟩] }
abbrev inRel : State := { inScan with phase := .rel }

/-- A command that an idle engine runs, one that a busy engine does not take, and one with no grant. -/
theorem witness_FrameOfTheCommands :
    (∃ t, exec (.fill ⟨0, 0, 4, 1⟩ ⟨1, 2, 3⟩) readyColor = .next t) ∧
      (∃ t, exec (.fill ⟨0, 0, 4, 1⟩ ⟨1, 2, 3⟩) inScan = .next t ∧ inScan.phase ≠ .idle) ∧
      (∃ t, exec (.fill ⟨0, 0, 4, 1⟩ ⟨1, 2, 3⟩) readyDenied = .next t ∧
        ∀ g rest, readyDenied.answers ≠ .grant g :: rest) :=
  ⟨⟨_, runCommand_granted witness_ReadyToGrant_color⟩, ⟨_, (exec_eq _ _).trans (runCommand_busy (s := inScan) (by decide)), by decide⟩,
    _, runCommand_denied witness_ReadyToDeny, fun _ _ h => by cases h⟩
theorem witness_FillEqualsWildcardReplace :
    (∃ t, exec (.fill ⟨0, 0, 4, 1⟩ ⟨1, 2, 3⟩) readyColor = .next t) ∧
      ∃ t, exec (.replaceAny ⟨0, 0, 4, 1⟩ ⟨1, 2, 3⟩) readyColor = .next t :=
  ⟨⟨_, runCommand_granted witness_ReadyToGrant_color⟩, _, runCommand_granted witness_ReadyToGrant_color⟩
theorem witness_FillIgnoresOldPixelsAndIsIdempotent :
    ReadyToGrant readyColor (grantOf rowOfFour) [] ∧ readyColor.mem.wf ∧ Memory.wf [(2, 0xFF)] :=
  ⟨witness_ReadyToGrant_color, by decide, by decide⟩
/-- No pixel is `0x12`; the pixel at column 0 is not `0xFF`. -/
theorem witness_ReplaceWithoutMatchChangesNothing :
    ¬ SomePixelSelected readyColor.cfg (.replace ⟨0, 0, 0, 1⟩ 0x12 ⟨1, 2, 3⟩) ⟨rowOfFour⟩ readyColor.mem ∧
      pixelAt .color ⟨rowOfFour⟩ readyColor.mem 0 0 ≠ packedFilter .color 0xFF :=
  ⟨fun ⟨x, y, h, _⟩ => by
    have h1 : (0 : Int) ≤ x := h.2.2.2.2.2.2.1
    have h2 : x < (0 : Int) + 0 := h.2.2.2.2.2.2.2
    omega, by decide⟩
theorem witness_ColourFillNeverReads :
    ReadyToGrant readyColor (grantOf rowOfFour) [] ∧ readyColor.cfg.format = .color :=
  ⟨witness_ReadyToGrant_color, rfl⟩
theorem witness_ColourReplaceReadsEachByteOnce :
    ReadyToGrant readyColor (grantOf rowOfFour) [] ∧ readyColor.cfg.format = .color ∧
      InRect ⟨0, 0, 4, 1⟩ ⟨rowOfFour⟩ 3 0 :=
  ⟨witness_ReadyToGrant_color, rfl, by unfold InRect; decide⟩
theorem witness_FilledTileHasScaledManyPixelsOn :
    ReadyToGrant readyMono (grantOf monoRows) [] ∧ readyMono.mem.wf ∧ readyMono.cfg.wf ∧
      readyMono.cfg.format = .mono ∧ luma ⟨64, 64, 64⟩ < bandwidth readyMono.cfg.bwMono ∧
      ∀ p ∈ tilePositions 0 0, InRect ⟨0, 0, 8, 8⟩ (grantOf monoRows).geo p.1 p.2 :=
  ⟨witness_ReadyToGrant_mono, by decide, witness_cfg_wf, rfl, by decide, by unfold InRect; decide⟩
/-- Two idle engines that agree on build, framebuffer and answers, and on little else. -/
theorem witness_NothingIsCarriedBetweenCommands :
    let u : State := { readyColor with cmd := latchReplace ⟨1, 1, 1, 1⟩ 7 ⟨1, 1, 1⟩, cx := 9, held := true }
    readyColor.phase = .idle ∧ u.phase = .idle ∧ u.cfg = readyColor.cfg ∧ u.mem = readyColor.mem ∧
      u.answers = readyColor.answers ∧ ∃ t, exec (.fill ⟨0, 0, 4, 1⟩ ⟨1, 2, 3⟩) readyColor = .next t :=
  ⟨rfl, rfl, rfl, rfl, rfl, _, runCommand_granted witness_ReadyToGrant_color⟩
theorem witness_StepRunsTheDecodedCommand :
    (withHost (.command 1)).phase = .idle ∧ (withHost (.command 1)).host = [.command 1] ∧
      decodeWord (withHost (.command 1)).cfg.format 1 = .ok (.fill ⟨0, 0, 0, 0⟩ ⟨0, 0, 0⟩) := by decide
theorem witness_InvalidWordIsTakenAndIgnored :
    (withHost (.command 0)).phase = .idle ∧ (withHost (.command 0)).host = [.command 0] ∧
      decodeWord (withHost (.command 0)).cfg.format 0 = .error .opcode := by decide

/-- A step of each busy phase. -/
theorem witness_BusyEngineHoldsTheHost :
    (inReq.busy = true ∧ ∃ t, step inReq = .next t) ∧ (inScan.busy = true ∧ ∃ t, step inScan = .next t) ∧
      (inRel.busy = true ∧ ∃ t, step inRel = .next t) :=
  ⟨⟨by decide, _, step_grant (g := grantOf rowOfFour) rfl rfl (by decide)⟩,
    ⟨by decide, _, step_scan rfl rfl (by decide)⟩, by decide, _, step_rel rfl rfl⟩
/-- A step that accepts a command, one that leaves the latch, and a reset. -/
theorem witness_LatchIsWrittenOnlyAtAcceptance :
    (∃ t, step (withHost (.command 1)) = .next t) ∧ (∃ t, step inScan = .next t) ∧
      ∃ t, step (withHost .reset) = .next t :=
  ⟨⟨_, step_granted_word⟩, ⟨_, step_scan rfl rfl (by decide)⟩, _, rfl⟩
theorem witness_RomAndBuildNeverChange : ∃ t, step (withHost (.store 5 0xAB)) = .next t := ⟨_, rfl⟩
theorem witness_Inv_inScan : Inv inScan :=
  ⟨by decide, witness_cfg_wf, by decide, fun _ => by decide, fun _ => ⟨by decide, by decide, by decide, by decide⟩⟩
/-- One pixel before the last of the row. -/
abbrev inScanBefore : State := { inScan with cx := 2 }
theorem witness_Inv_inScanBefore : Inv inScanBefore :=
  ⟨by decide, witness_cfg_wf, by decide, fun _ => by decide, fun _ => ⟨by decide, by decide, by decide, by decide⟩⟩
/-- Three rows, the second with no visible column, the third beginning at column 1. -/
abbrev inScanGap : State :=
  { inScan with geo := ⟨[⟨0, 0, 3⟩, ⟨8, 1, 0⟩, ⟨16, 1, 3⟩]⟩, yend := 3, cmd := latchFill ⟨0, 0, 4, 3⟩ ⟨255, 128, 0⟩ }
theorem witness_Inv_inScanGap : Inv inScanGap :=
  ⟨by decide, witness_cfg_wf, by decide, fun _ => by decide, fun _ => ⟨by decide, by decide, by decide, by decide⟩⟩
theorem witness_TraceInv_inScan : TraceInv inScan := ⟨by decide, by decide⟩
theorem witness_StepKeepsTheInvariant : Inv inScan ∧ ∃ t, step inScan = .next t :=
  ⟨witness_Inv_inScan, _, step_scan rfl rfl (by decide)⟩
theorem witness_StepKeepsReleasesAndCompletionsMatched :
    Inv inScan ∧ TraceInv inScan ∧ ∃ t, step inScan = .next t :=
  ⟨witness_Inv_inScan, witness_TraceInv_inScan, _, step_scan rfl rfl (by decide)⟩
theorem witness_NoStepFaults : Inv inScan ∧ inScan.phase = .scan := ⟨witness_Inv_inScan, rfl⟩
/-- A row of the phase table each: whole commands of an idle engine, the three answers in `REQ`, a rectangle that
is not empty and one that is, a pixel that remains and none, and the release. -/
theorem witness_PhaseChangesAreThoseOfTheTable :
    ((∃ t, step (withHost (.command 1)) = .next t ∧ t.phase = .idle) ∧
      ∃ t, step { withHost (.command 1) with answers := [] } = .next t ∧ t.phase = .req) ∧
    (∃ t, step { inReq with answers := [] } = .next t ∧ t.phase = .req) ∧
    (∃ t, step { inReq with answers := [.deny] } = .next t ∧ t.phase = .idle) ∧
    (∃ t, step { inReq with cmd := latchFill ⟨0, 0, 4, 1⟩ ⟨1, 2, 3⟩ } = .next t ∧ t.phase = .scan) ∧
    (∃ t, step inReq = .next t ∧ t.phase = .rel) ∧
    (Inv inScanBefore ∧ ∃ t, step inScanBefore = .next t ∧ t.phase = .scan) ∧
    (Inv inScan ∧ ∃ t, step inScan = .next t ∧ t.phase = .rel) ∧
    ∃ t, step inRel = .next t ∧ t.phase = .idle :=
  ⟨⟨⟨_, step_granted_word, rfl⟩,
      _, (step_command (i := .fill ⟨0, 0, 0, 0⟩ ⟨0, 0, 0⟩) rfl rfl (by decide)).trans (runCommand_waits rfl rfl), rfl⟩,
    ⟨_, rfl, rfl⟩, ⟨_, step_deny rfl rfl, rfl⟩,
    ⟨_, step_grant (g := grantOf rowOfFour) rfl rfl (by decide), by decide⟩,
    ⟨_, step_grant (g := grantOf rowOfFour) rfl rfl (by decide), by decide⟩,
    ⟨witness_Inv_inScanBefore, _, step_scan rfl rfl (by decide), by decide⟩,
    ⟨witness_Inv_inScan, _, step_scan rfl rfl (by decide), by decide⟩, _, step_rel rfl rfl, rfl⟩
/-- A grant whose first row to visit is row 0; a scan move inside a row; one at the end of a row with a row to come
that has a column, an empty row between; and one with none. -/
theorem witness_ScanPositionMovesInOrder :
    (∃ t, step { inReq with cmd := latchFill ⟨0, 0, 4, 1⟩ ⟨1, 2, 3⟩ } = .next t ∧
      RowHasPixel (latchFill ⟨0, 0, 4, 1⟩ ⟨1, 2, 3⟩) ⟨rowOfFour⟩ 0) ∧
    (Inv inScanBefore ∧ inScanBefore.cx < inScanBefore.xe) ∧
    (Inv inScanGap ∧ inScanGap.cx = inScanGap.xe ∧ ¬ RowHasPixel inScanGap.cmd inScanGap.geo 1 ∧
      RowHasPixel inScanGap.cmd inScanGap.geo 2 ∧
      ∃ t, step inScanGap = .next t ∧ t.phase = .scan ∧ t.cy = 2 ∧ t.cx = 1 ∧ t.xe = 3) ∧
    (Inv inScan ∧ inScan.cx = inScan.xe ∧ inScan.cy + 1 = inScan.yend ∧ ∃ t, step inScan = .next t) :=
  ⟨⟨_, step_grant (g := grantOf rowOfFour) rfl rfl (by decide), by decide⟩, ⟨witness_Inv_inScanBefore, by decide⟩,
    ⟨witness_Inv_inScanGap, by decide, by decide, by decide, _, step_scan rfl rfl (by decide), by decide⟩,
    witness_Inv_inScan, by decide, by decide, _, step_scan rfl rfl (by decide)⟩
/-- Both commands, in both formats. -/
theorem witness_ReplaceLoadsEachPositionOnce :
    ((∃ rect c col, Instr.replace ⟨0, 0, 4, 1⟩ 0xFF ⟨1, 2, 3⟩ = .replace rect c col) ∧
      ∃ rect col, Instr.replaceAny ⟨0, 0, 4, 1⟩ ⟨1, 2, 3⟩ = .replaceAny rect col) ∧
    ReadyToGrant readyColor (grantOf rowOfFour) [] ∧ ReadyToGrant readyMono (grantOf monoRows) [] :=
  ⟨⟨⟨_, _, _, rfl⟩, _, _, rfl⟩, witness_ReadyToGrant_color, witness_ReadyToGrant_mono⟩
/-- A grant whose row begins left of column 0 is refused by a step in `REQ`. -/
theorem witness_OnlyIllFormedGrantsAreRefused :
    let g : Grant := { geo := ⟨[⟨8, -1, 3⟩]⟩, storage := [{ base := 0, len := 64 }] }
    let s : State := { readyColor with answers := [.grant g] }
    s.phase = .idle ∧ s.answers = [.grant g] ∧ ¬ g.wf s.cfg.format ∧
      step { s with phase := .req } = .refused .illFormedGeometry :=
  ⟨rfl, rfl, by decide, rfl⟩
theorem witness_SingleMovesReachTheWholeCommand :
    readyColor.phase = .idle ∧ readyColor.answers ≠ [] ∧
      ∃ t, exec (.fill ⟨0, 0, 4, 1⟩ ⟨1, 2, 3⟩) readyColor = .next t :=
  ⟨rfl, by decide, _, runCommand_granted witness_ReadyToGrant_color⟩
theorem witness_CommandCompletesWithinTheBound :
    readyColor.phase = .idle ∧ readyColor.answers = [.grant (grantOf rowOfFour)] ∧
      ∀ g, Answer.grant (grantOf rowOfFour) = .grant g → g.wf readyColor.cfg.format :=
  ⟨rfl, rfl, fun _ h => by cases h; decide⟩
theorem witness_ResetMoveLeavesTheFramebuffer :
    (withHost .reset).phase = .idle ∧ (withHost .reset).host = [.reset] := by decide
theorem witness_HostStoreIsSeenByTheEngine :
    (withHost (.store 5 0xAB)).phase = .idle ∧ (withHost (.store 5 0xAB)).host = [.store 5 0xAB] ∧
      (withHost (.store 5 0xAB)).mem.wf ∧ (4 : Nat) ≠ 5 := by decide

end Sys2Proof.Tests
end

/-! PROOFS. The accesses of a pixel step (spec 20_memory.md R38), from what `pixelStep_trace` records. -/

namespace Sys2Proof.Machine

/-! ### When a pixel matches, R162 -/

theorem matchColor_iff (k : Latch) (cur : Byte) :
    matchColor k cur = true ↔ k.wild = true ∨ cur = k.fcolor := by
  simp [matchColor]

theorem matchMono_iff (k : Latch) (cur : Bool) :
    matchMono k cur = true ↔ k.wild = true ∨ cur = k.fcolor.getLsbD 0 := by
  simp [matchMono]

/-! ### The accesses, by operation and format -/

/-- `FILL` in `COLOR` does not read, and always stores. -/
theorem pixelEvents_fill_color {s : State} (hop : s.cmd.op = .fill) (hf : s.cfg.format = .color) :
    pixelEvents s = [.memWrite s.curAddr s.curColor] := by
  simp [pixelEvents, pixelReads, pixelStores, pixelByte, hop, hf]

/-- `FILL` in `MONO` reads for the other seven bits of the byte, and always stores. -/
theorem pixelEvents_fill_mono {s : State} (hop : s.cmd.op = .fill) (hf : s.cfg.format = .mono) :
    pixelEvents s = [.memRead s.curAddr (s.mem.read s.curAddr),
      .memWrite s.curAddr (setbit (s.mem.read s.curAddr) (pixelBit s.cx) s.curMono)] := by
  simp [pixelEvents, pixelReads, pixelStores, pixelByte, hop, hf]

/-- A replace in `COLOR` always reads, and stores where the byte read matches. -/
theorem pixelEvents_replace_color {s : State} (hop : s.cmd.op = .replace) (hf : s.cfg.format = .color) :
    pixelEvents s = [.memRead s.curAddr (s.mem.read s.curAddr)] ++
      if s.cmd.wild = true ∨ s.mem.read s.curAddr = s.cmd.fcolor
      then [.memWrite s.curAddr s.curColor] else [] := by
  simp [pixelEvents, pixelReads, pixelStores, pixelByte, hop, hf, matchColor_iff]

/-- A replace in `MONO` always reads, and stores where the pixel's bit of the byte read matches. -/
theorem pixelEvents_replace_mono {s : State} (hop : s.cmd.op = .replace) (hf : s.cfg.format = .mono) :
    pixelEvents s = [.memRead s.curAddr (s.mem.read s.curAddr)] ++
      if s.cmd.wild = true ∨ (s.mem.read s.curAddr).getLsbD (pixelBit s.cx) = s.cmd.fcolor.getLsbD 0
      then [.memWrite s.curAddr (setbit (s.mem.read s.curAddr) (pixelBit s.cx) s.curMono)] else [] := by
  simp [pixelEvents, pixelReads, pixelStores, pixelByte, hop, hf, matchMono_iff]

end Sys2Proof.Machine

namespace Sys2Proof.Proofs

open Sys2Proof Sys2Proof.Machine

/-- Settles O23: a pixel step records exactly its `pixelEvents`, which each of the four cases spells out. -/
theorem pixelStepAccesses : Obligations.PixelStepAccesses := by
  intro s
  rw [pixelStep_trace]
  refine ⟨fun hop hf => ?_, fun hop hf => ?_, fun hop hf => ?_, fun hop hf => ?_⟩
  · rw [pixelEvents_fill_color hop hf]
  · rw [pixelEvents_fill_mono hop hf]
  · rw [pixelEvents_replace_color hop hf]
  · rw [pixelEvents_replace_mono hop hf]

end Sys2Proof.Proofs

/-! PROOFS. The tiling of the threshold lookup (spec 40_threshold_matrix.md R70), from `threshold_eq_getD`. -/

namespace Sys2Proof.Machine

/-- R70: the lookup is a function of the residues of the position, by columns and rows. -/
theorem threshold_congr_emod (m : Matrix) {x x' y y' : Int} (hx : x' % 8 = x % 8) (hy : y' % 8 = y % 8) :
    threshold m x' y' = threshold m x y := by
  rw [threshold_eq_getD, threshold_eq_getD, hx, hy]

end Sys2Proof.Machine

namespace Sys2Proof.Proofs

open Sys2Proof Sys2Proof.Machine

/-- Settles O10: the entry is the one `threshold_eq_getD` names, and a move by a multiple of 8 keeps the
residues it depends on. -/
theorem thresholdIsTiledByEight : Obligations.ThresholdIsTiledByEight := by
  intro m x y
  refine ⟨⟨(y % 8).toNat, (x % 8).toNat, by omega, by omega, by omega, by omega, threshold_eq_getD m x y⟩,
    fun _ _ hx hy => threshold_congr_emod m hx hy, fun i j => ?_⟩
  exact threshold_congr_emod m (Int.add_mul_emod_self_left x 8 i) (Int.add_mul_emod_self_left y 8 j)

end Sys2Proof.Proofs

/-! PROOFS. The quantizer's ranges, the stored colour byte and the luminance (spec 41_quantizer.md R82, R84, R86). -/

namespace Sys2Proof.Machine

/-! ### The ranges of the level, R82 -/

/-- An admitted bandwidth divides the channel's 256 values evenly, so a base level stays below their quotient. -/
theorem div_bandwidth_lt {v bw : Nat} (hv : v < 256) (hbw : bw = 64 ∨ bw = 128 ∨ bw = 256) : v / bw < 256 / bw := by
  have hdvd : bw ∣ 256 := by rcases hbw with rfl | rfl | rfl <;> decide
  exact Nat.div_lt_div_of_lt_of_dvd hdvd hv

/-! ### The stored colour byte, R84 -/

/-- The sum of R84 fits the byte, since no channel's level exceeds 3. -/
theorem pixelColor_toNat (cfg : Config) (col : Colour) (x y : Int) :
    (pixelColor cfg col x y).toNat =
      0xC0 + 16 * quantize col.r.toNat (threshold cfg.matrix x y) 64 3
        + 4 * quantize col.g.toNat (threshold cfg.matrix x y) 64 3
        + quantize col.b.toNat (threshold cfg.matrix x y) 64 3 := by
  have hr := quantize_le_top col.r.toNat (threshold cfg.matrix x y) 64 3
  have hg := quantize_le_top col.g.toNat (threshold cfg.matrix x y) 64 3
  have hb := quantize_le_top col.b.toNat (threshold cfg.matrix x y) 64 3
  simp only [pixelColor, bwColor, BitVec.toNat_ofNat]
  exact Nat.mod_eq_of_lt (by omega)

/-! ### The luminance and the stored bit, R86 -/

theorem weightedSum_le (col : Colour) : 3 * col.r.toNat + 4 * col.g.toNat + col.b.toNat ≤ 2040 := by
  have := col.r.isLt
  have := col.g.isLt
  have := col.b.isLt
  omega

/-- The weights of R86 add up to its divisor. -/
theorem luma_grey (v : Byte) : luma ⟨v, v, v⟩ = v.toNat := by
  change (3 * v.toNat + 4 * v.toNat + v.toNat) / 8 = v.toNat
  omega

/-- The stored bit, as a number, is the level: the top level is 1. -/
theorem pixelMono_level (cfg : Config) (col : Colour) (x y : Int) :
    (if pixelMono cfg col x y then 1 else 0)
      = quantize (luma col) (threshold cfg.matrix x y) (bandwidth cfg.bwMono) 1 := by
  rcases Nat.le_one_iff_eq_zero_or_eq_one.1
    (quantize_le_top (luma col) (threshold cfg.matrix x y) (bandwidth cfg.bwMono) 1) with h | h <;>
    simp [pixelMono, h]

end Sys2Proof.Machine

namespace Sys2Proof.Proofs

open Sys2Proof Sys2Proof.Machine

/-- Settles O15: `pixelColor_toNat` gives the byte, and its fields are the levels because each is at most 3. -/
theorem colourByteHoldsTheLevels : Obligations.ColourByteHoldsTheLevels := by
  intro cfg col x y p t
  have hp : p = 0xC0 + 16 * quantize col.r.toNat t 64 3 + 4 * quantize col.g.toNat t 64 3
      + quantize col.b.toNat t 64 3 := pixelColor_toNat cfg col x y
  have hr := quantize_le_top col.r.toNat t 64 3
  have hg := quantize_le_top col.g.toNat t 64 3
  have hb := quantize_le_top col.b.toNat t 64 3
  refine ⟨hp, ?_, ?_, ?_, ?_, ?_, ?_⟩ <;> omega

/-- Settles O11: the base and the unclamped level from `div_bandwidth_lt`, the rescaled residual from
`scaled_lt`, the output from the two cases of the comparison. -/
theorem quantizerRangesAndCases : Obligations.QuantizerRangesAndCases := by
  intro v t bw top hv _ hbw _
  have hpos : 0 < bw := by omega
  have hbase : v / bw < 256 / bw := div_bandwidth_lt (by omega) hbw
  refine ⟨Nat.le_sub_one_of_lt hbase, Nat.le_sub_one_of_lt (Nat.mod_lt v hpos), scaled_eq v bw,
    Nat.le_of_lt_succ (scaled_lt hpos), ?_, quantize_le_top v t bw top, quantize_promoted top,
    quantize_not_promoted top⟩
  split
  · exact hbase
  · exact hbase.le

/-- Settles O16: the bit from `pixelMono_level`, the sum's bound, and the luminance as its eighth. -/
theorem luminanceRangeAndGreys : Obligations.LuminanceRangeAndGreys := by
  refine ⟨pixelMono_level, weightedSum_le, fun col => ⟨luma_le col, ?_, ?_⟩, luma_grey, luma_grey 255, luma_grey 0⟩
  · exact Nat.mul_div_le _ 8
  · exact Nat.lt_mul_div_succ _ (by decide)

end Sys2Proof.Proofs

/-! PROOFS. A granted command whose clipped rectangle is empty (spec 60_exceptions.md R172, R107), from
`scanRows_none`: its scan has no position to visit. -/

namespace Sys2Proof.Machine

/-- R172: with no position in the clipped rectangle, nothing is written and nothing is recorded between the
grant and the release. -/
theorem grantedEnd_of_empty {k : Latch} {g : Geometry} (rest : List Answer) (s : State)
    (h : ∀ x y, ¬ InRect k.rect g x y) :
    (grantedEnd k g rest s).mem = s.mem ∧
      (grantedEnd k g rest s).trace = s.trace ++ [.captureRequest, .grant g, .release, .done] := by
  obtain ⟨hmem, htrace⟩ := scanRows_none (grantedStart k g rest s).rowsLeft (s := grantedStart k g rest s)
    fun x y => mt (rowRun_grantedStart k g rest s x y).1 (h x y)
  unfold grantedEnd
  constructor
  · rw [finishCommand_mem, hmem, grantedStart_mem]
  · rw [finishCommand_trace, htrace, grantedStart_trace]
    simp

end Sys2Proof.Machine

namespace Sys2Proof.Proofs

open Sys2Proof Sys2Proof.Machine

/-- Settles O31: each command is its latch run to `grantedEnd`, which leaves the engine idle and released
(`grantedEnd_keeps`) and, the rectangle being empty, has made no access (`grantedEnd_of_empty`). -/
theorem emptyRectangleTouchesNothing : Obligations.EmptyRectangleTouchesNothing := by
  intro i s g rest hready hempty
  rw [← latchOf_rect] at hempty
  obtain ⟨hmem, htrace⟩ := grantedEnd_of_empty rest s hempty
  obtain ⟨-, -, hphase, hheld, -, -, hanswers⟩ := grantedEnd_keeps i.latchOf g.geo rest s
  exact ⟨grantedEnd i.latchOf g.geo rest s, (exec_eq i s).trans (runCommand_granted hready),
    hmem, hphase, hheld, hanswers, htrace⟩

end Sys2Proof.Proofs

/-! PROOFS. The command words (spec 30_encoding.md): which words decode to each command, once for each
constructor, and from that the round trips, the invalid words and the opcode map's masks. -/

namespace Sys2Proof

/-! ### The words of each command, R57 and R59 -/

theorem decodeWord_eq_fill_iff (fmt : Format) (w : CmdWord) (rect : Rect) (col : Colour) :
    decodeWord fmt w = .ok (.fill rect col) ↔
      fieldRsv0 w = 0 ∧ fieldRsv1 w = 0 ∧ fieldOpcode w = 0x01 ∧ fieldWild w = 0 ∧ fieldFcolor w = 0 ∧
        fieldRect w = rect ∧ fieldColour w = col := by
  unfold decodeWord
  split_ifs <;> simp_all

theorem decodeWord_eq_replace_iff (fmt : Format) (w : CmdWord) (rect : Rect) (c : Byte) (col : Colour) :
    decodeWord fmt w = .ok (.replace rect c col) ↔
      fieldRsv0 w = 0 ∧ fieldRsv1 w = 0 ∧ fieldOpcode w = 0x02 ∧ fieldWild w ≠ 1 ∧
        ¬ (fmt = .mono ∧ 2 ≤ (fieldFcolor w).toNat) ∧
        fieldRect w = rect ∧ fieldFcolor w = c ∧ fieldColour w = col := by
  unfold decodeWord
  split_ifs <;> simp_all

theorem decodeWord_eq_replaceAny_iff (fmt : Format) (w : CmdWord) (rect : Rect) (col : Colour) :
    decodeWord fmt w = .ok (.replaceAny rect col) ↔
      fieldRsv0 w = 0 ∧ fieldRsv1 w = 0 ∧ fieldOpcode w = 0x02 ∧ fieldWild w = 1 ∧ fieldFcolor w = 0 ∧
        fieldRect w = rect ∧ fieldColour w = col := by
  unfold decodeWord
  split_ifs <;> simp_all

/-- A one-bit field is 0 or 1. -/
theorem fieldWild_eq_zero_iff (w : CmdWord) : fieldWild w = 0 ↔ fieldWild w ≠ 1 := by
  generalize fieldWild w = b
  revert b
  decide

/-- R56: the one constraint on a legal command. -/
theorem wf_replace_iff (fmt : Format) (rect : Rect) (c : Byte) (col : Colour) :
    (Instr.replace rect c col).wf fmt = true ↔ ¬ (fmt = .mono ∧ 2 ≤ c.toNat) := by
  cases fmt <;> simp [Instr.wf]

/-- The round trip, both ways: a command's word is the one word that decodes to it, where it is legal. -/
theorem decodeWord_eq_ok_iff (fmt : Format) (w : CmdWord) (i : Instr) :
    decodeWord fmt w = .ok i ↔ encodeWord i = w ∧ i.wf fmt = true := by
  cases i with
  | fill rect col =>
    rw [decodeWord_eq_fill_iff]
    constructor
    · rintro ⟨h0, h1, hop, hwild, hfc, rfl, rfl⟩
      refine ⟨?_, rfl⟩
      rw [encodeWord, ← hop, ← hwild, ← hfc]
      exact packWord_fields h0 h1
    · rintro ⟨rfl, -⟩
      exact ⟨fieldRsv0_packWord .., fieldRsv1_packWord .., fieldOpcode_packWord .., fieldWild_packWord ..,
        fieldFcolor_packWord .., fieldRect_packWord .., fieldColour_packWord ..⟩
  | replace rect c col =>
    rw [decodeWord_eq_replace_iff, wf_replace_iff, ← fieldWild_eq_zero_iff]
    constructor
    · rintro ⟨h0, h1, hop, hwild, hfmt, rfl, rfl, rfl⟩
      refine ⟨?_, hfmt⟩
      rw [encodeWord, ← hop, ← hwild]
      exact packWord_fields h0 h1
    · rintro ⟨rfl, hfmt⟩
      exact ⟨fieldRsv0_packWord .., fieldRsv1_packWord .., fieldOpcode_packWord .., fieldWild_packWord ..,
        by rwa [encodeWord, fieldFcolor_packWord], fieldRect_packWord .., fieldFcolor_packWord ..,
        fieldColour_packWord ..⟩
  | replaceAny rect col =>
    rw [decodeWord_eq_replaceAny_iff]
    constructor
    · rintro ⟨h0, h1, hop, hwild, hfc, rfl, rfl⟩
      refine ⟨?_, rfl⟩
      rw [encodeWord, ← hop, ← hwild, ← hfc]
      exact packWord_fields h0 h1
    · rintro ⟨rfl, -⟩
      exact ⟨fieldRsv0_packWord .., fieldRsv1_packWord .., fieldOpcode_packWord .., fieldWild_packWord ..,
        fieldFcolor_packWord .., fieldRect_packWord .., fieldColour_packWord ..⟩

/-! ### Masks, R54 -/

theorem wordField_and (lo n : Nat) (v w : CmdWord) : wordField lo n (v &&& w) = wordField lo n v &&& wordField lo n w :=
  BitVec.extractLsb'_and

/-- Words with the same field have the same bits there. -/
theorem getLsbD_eq_of_wordField_eq {lo n : Nat} {v w : CmdWord} (h : wordField lo n v = wordField lo n w) {i : Nat}
    (hlo : lo ≤ i) (hhi : i < lo + n) : v.getLsbD i = w.getLsbD i := by
  have hbit := congrArg (fun u => u.getLsbD (i - lo)) h
  simp only [wordField_getLsbD, Nat.add_sub_cancel' hlo, show i - lo < n by omega, decide_true,
    Bool.true_and] at hbit
  exact hbit

/-- A word is made of its fields: those of R51, the operands between `FCOLOR` and `RSV1` taken together. -/
theorem word_eq_iff_fields (v w : CmdWord) :
    v = w ↔ fieldOpcode v = fieldOpcode w ∧ fieldWild v = fieldWild w ∧ fieldRsv0 v = fieldRsv0 w ∧
      fieldFcolor v = fieldFcolor w ∧ wordField 24 88 v = wordField 24 88 w ∧ fieldRsv1 v = fieldRsv1 w := by
  constructor
  · rintro rfl
    exact ⟨rfl, rfl, rfl, rfl, rfl, rfl⟩
  · rintro ⟨hop, hwild, h0, hfc, hargs, h1⟩
    refine BitVec.eq_of_getLsbD_eq fun i hi => ?_
    rcases Nat.lt_or_ge i 8 with h8 | h8
    · exact getLsbD_eq_of_wordField_eq hop (by omega) h8
    rcases Nat.lt_or_ge i 9 with h9 | h9
    · exact getLsbD_eq_of_wordField_eq hwild h8 h9
    rcases Nat.lt_or_ge i 16 with h16 | h16
    · exact getLsbD_eq_of_wordField_eq h0 h9 h16
    rcases Nat.lt_or_ge i 24 with h24 | h24
    · exact getLsbD_eq_of_wordField_eq hfc h16 h24
    rcases Nat.lt_or_ge i 112 with h112 | h112
    · exact getLsbD_eq_of_wordField_eq hargs h24 h112
    · exact getLsbD_eq_of_wordField_eq h1 h112 hi

/-- A mask with every fixed field set and no operand bit compares those fields, and `FCOLOR` under its own bits. -/
theorem and_mask_eq_iff {m v : CmdWord} (w : CmdWord) (hop : fieldOpcode m = BitVec.allOnes 8)
    (hwild : fieldWild m = BitVec.allOnes 1) (h0 : fieldRsv0 m = BitVec.allOnes 7)
    (h1 : fieldRsv1 m = BitVec.allOnes 16) (hargs : wordField 24 88 m = 0#88) (hv : wordField 24 88 v = 0#88) :
    w &&& m = v ↔
      fieldOpcode w = fieldOpcode v ∧ fieldWild w = fieldWild v ∧ fieldRsv0 w = fieldRsv0 v ∧
        fieldFcolor w &&& fieldFcolor m = fieldFcolor v ∧ fieldRsv1 w = fieldRsv1 v := by
  rw [word_eq_iff_fields, hv, wordField_and, hargs, BitVec.and_zero]
  unfold fieldOpcode fieldWild fieldRsv0 fieldFcolor fieldRsv1 at *
  simp only [wordField_and, hop, hwild, h0, h1, BitVec.and_allOnes, true_and]

/-- The `FILL` row of the opcode map, field by field. -/
theorem fillRow_iff (w : CmdWord) :
    w &&& 0xFFFF0000000000000000000000FFFFFF = 0x00000000000000000000000000000001 ↔
      fieldOpcode w = 0x01 ∧ fieldWild w = 0 ∧ fieldRsv0 w = 0 ∧ fieldFcolor w = 0 ∧ fieldRsv1 w = 0 := by
  rw [and_mask_eq_iff w (by decide) (by decide) (by decide) (by decide) (by decide) (by decide),
    show fieldFcolor (0xFFFF0000000000000000000000FFFFFF : CmdWord) = BitVec.allOnes 8 by decide,
    BitVec.and_allOnes]
  rfl

/-- The `REPLACE` row, whose mask leaves `FCOLOR` free. -/
theorem replaceRow_iff (w : CmdWord) :
    w &&& 0xFFFF000000000000000000000000FFFF = 0x00000000000000000000000000000002 ↔
      fieldOpcode w = 0x02 ∧ fieldWild w = 0 ∧ fieldRsv0 w = 0 ∧ fieldRsv1 w = 0 := by
  rw [and_mask_eq_iff w (by decide) (by decide) (by decide) (by decide) (by decide) (by decide),
    show fieldFcolor (0xFFFF000000000000000000000000FFFF : CmdWord) = 0#8 by decide,
    BitVec.and_zero]
  exact ⟨fun ⟨hop, hwild, h0, _, h1⟩ => ⟨hop, hwild, h0, h1⟩, fun ⟨hop, hwild, h0, h1⟩ => ⟨hop, hwild, h0, rfl, h1⟩⟩

/-- The `REPLACE.ANY` row. -/
theorem replaceAnyRow_iff (w : CmdWord) :
    w &&& 0xFFFF0000000000000000000000FFFFFF = 0x00000000000000000000000000000102 ↔
      fieldOpcode w = 0x02 ∧ fieldWild w = 1 ∧ fieldRsv0 w = 0 ∧ fieldFcolor w = 0 ∧ fieldRsv1 w = 0 := by
  rw [and_mask_eq_iff w (by decide) (by decide) (by decide) (by decide) (by decide) (by decide),
    show fieldFcolor (0xFFFF0000000000000000000000FFFFFF : CmdWord) = BitVec.allOnes 8 by decide,
    BitVec.and_allOnes]
  rfl

/-! ### Byte images, R53 -/

theorem bytesToNat_append_singleton (bs : List Byte) (b : Byte) :
    bytesToNat (bs ++ [b]) = bytesToNat bs + 2 ^ (8 * bs.length) * b.toNat := by
  induction bs with
  | nil => simp [bytesToNat]
  | cons a bs ih =>
    rw [List.cons_append, bytesToNat, ih, bytesToNat, List.length_cons, Nat.mul_succ, Nat.pow_add]
    ring

theorem wordField_toNat (lo n : Nat) (w : CmdWord) : (wordField lo n w).toNat = w.toNat / 2 ^ lo % 2 ^ n := by
  rw [wordField, BitVec.extractLsb'_toNat, Nat.shiftRight_eq_div_pow]

/-- The first `n` bytes of a word's image are its value's low `8n` bits. -/
theorem bytesToNat_range_map (w : CmdWord) (n : Nat) :
    bytesToNat ((List.range n).map fun i => wordField (8 * i) 8 w) = w.toNat % 2 ^ (8 * n) := by
  induction n with
  | zero => simp [bytesToNat, Nat.mod_one]
  | succ n ih =>
    rw [List.range_succ, List.map_append, List.map_singleton, bytesToNat_append_singleton, ih, List.length_map,
      List.length_range, wordField_toNat, Nat.mul_succ, Nat.pow_add, Nat.mod_mul]

theorem wordBytes_length (w : CmdWord) : (wordBytes w).length = 16 := by
  simp [wordBytes]

theorem takeWord_wordBytes_append (w : CmdWord) (rest : List Byte) :
    takeWord (wordBytes w ++ rest) = some (w, rest) := by
  have hlen := wordBytes_length w
  have hval : BitVec.ofNat 128 (bytesToNat (wordBytes w)) = w := by
    rw [wordBytes, bytesToNat_range_map]
    simp [Nat.mod_eq_of_lt w.isLt]
  rw [takeWord, if_pos (by rw [List.length_append]; omega), List.take_left' hlen, List.drop_left' hlen, hval]

theorem wordBytes_getLsbD (w : CmdWord) {i b : Nat} (hi : i < 16) (hb : b < 8) :
    ((wordBytes w).getD i 0).getLsbD b = w.getLsbD (8 * i + b) := by
  have hget : (wordBytes w).getD i 0 = wordField (8 * i) 8 w := by
    simp [wordBytes, List.getD, hi]
  rw [hget, wordField_getLsbD, decide_eq_true hb, Bool.true_and]

end Sys2Proof

namespace Sys2Proof.Proofs

open Sys2Proof Sys2Proof.Machine

/-- Settles O2, the encoder's half of `decodeWord_eq_ok_iff`. -/
theorem decodeOfEncodeIsTheCommand : Obligations.DecodeOfEncodeIsTheCommand := by
  intro fmt i hwf
  exact (decodeWord_eq_ok_iff fmt (encodeWord i) i).2 ⟨rfl, hwf⟩

/-- Settles O3, the decoder's half of `decodeWord_eq_ok_iff`. -/
theorem encodeOfDecodeIsTheWord : Obligations.EncodeOfDecodeIsTheWord := by
  intro fmt w i h
  exact (decodeWord_eq_ok_iff fmt w i).1 h

/-- Settles O4, along the decoder's tests: each branch that rejects is one listed case. -/
theorem invalidWordsAreExactlyTheListed : Obligations.InvalidWordsAreExactlyTheListed := by
  intro fmt w
  have hwild := fieldWild_eq_zero_iff w
  unfold decodeWord
  split_ifs <;> simp_all

/-- Settles O5: a row's mask compares the very fields its command's decoding tests. -/
theorem matchAndMaskSelectTheCommands : Obligations.MatchAndMaskSelectTheCommands := by
  intro fmt w
  refine ⟨?_, ?_, ?_⟩
  · simp only [decodeWord_eq_fill_iff, fillRow_iff]
    constructor
    · rintro ⟨_, _, h0, h1, hop, hwild, hfc, -, -⟩
      exact ⟨hop, hwild, h0, hfc, h1⟩
    · rintro ⟨hop, hwild, h0, hfc, h1⟩
      exact ⟨_, _, h0, h1, hop, hwild, hfc, rfl, rfl⟩
  · simp only [decodeWord_eq_replace_iff, replaceRow_iff, ← fieldWild_eq_zero_iff]
    constructor
    · rintro ⟨_, _, _, h0, h1, hop, hwild, hfmt, -, -, -⟩
      exact ⟨⟨hop, hwild, h0, h1⟩, fun hm => Nat.le_of_not_lt fun h => hfmt ⟨hm, h⟩⟩
    · rintro ⟨⟨hop, hwild, h0, h1⟩, hfmt⟩
      exact ⟨_, _, _, h0, h1, hop, hwild, fun ⟨hm, h⟩ => Nat.not_le_of_lt h (hfmt hm), rfl, rfl, rfl⟩
  · simp only [decodeWord_eq_replaceAny_iff, replaceAnyRow_iff]
    constructor
    · rintro ⟨_, _, h0, h1, hop, hwild, hfc, -, -⟩
      exact ⟨hop, hwild, h0, hfc, h1⟩
    · rintro ⟨hop, hwild, h0, hfc, h1⟩
      exact ⟨_, _, h0, h1, hop, hwild, hfc, rfl, rfl⟩

/-- Settles O6: the image's bytes are the word's fields (`wordBytes_getLsbD`), and taking a word from it gives
the word back (`takeWord_wordBytes_append`), which is what decoding an image decodes. -/
theorem byteTransportIsLeastSignificantFirst : Obligations.ByteTransportIsLeastSignificantFirst := by
  intro fmt w rest
  refine ⟨wordBytes_length w, fun i b hi hb => wordBytes_getLsbD w hi hb, takeWord_wordBytes_append w rest,
    fun i hok => ?_, fun e herr => ?_⟩
  · simp only [decode, takeWord_wordBytes_append, hok]
  · simp only [decode, takeWord_wordBytes_append, herr]

/-- Settles O1, by evaluating the decoder and the byte image of each worked word. -/
theorem workedEncodingsDecode : Obligations.WorkedEncodingsDecode := by
  refine ⟨?_, by decide, by decide, by decide, by decide, by decide, by decide, by decide, by decide⟩
  intro fmt
  cases fmt <;> decide

end Sys2Proof.Proofs

/-! PROOFS. The default table (spec 40_threshold_matrix.md R71, R72, R74, R76): its 64 entries are evaluated
once, and every position has the entry of its residues. -/

namespace Sys2Proof.Machine

/-- The closed form of R74, of a column and a row number. -/
def closedForm (c r : Nat) : Nat :=
  32 * ((c ^^^ r) % 2) + 16 * (r % 2) + 8 * ((c ^^^ r) / 2 % 2) + 4 * (r / 2 % 2) + 2 * ((c ^^^ r) / 4 % 2)
    + r / 4 % 2

/-- R74 for the 64 positions of the table itself. -/
theorem threshold_default_residues : ∀ c r : Fin 8, threshold defaultMatrix c.val r.val = closedForm c r := by
  decide

/-- R74: every position has a column and a row of the table, and the threshold their closed form gives. -/
theorem threshold_default (x y : Int) :
    ∃ c r : Fin 8, x % 8 = c.val ∧ y % 8 = r.val ∧ threshold defaultMatrix x y = closedForm c r := by
  refine ⟨⟨(x % 8).toNat, by omega⟩, ⟨(y % 8).toNat, by omega⟩, by simp only; omega, by simp only; omega, ?_⟩
  rw [← threshold_default_residues]
  exact threshold_congr_emod _ (by simp only; omega) (by simp only; omega)

/-- R76 for a column and a row of the table. -/
theorem closedForm_properties : ∀ c r : Fin 8,
    (closedForm c r < 32 ↔ (c.val + r.val) % 2 = 0) ∧ (closedForm c r < 16 ↔ c.val % 2 = 0 ∧ r.val % 2 = 0) ∧
      (closedForm c r = 0 ↔ c.val = 0 ∧ r.val = 0) ∧ (closedForm c r = 63 ↔ c.val = 0 ∧ r.val = 7) := by
  decide

/-- R76(a), the checkerboard. -/
theorem threshold_default_lt_iff (x y : Int) : threshold defaultMatrix x y < 32 ↔ (x + y) % 2 = 0 := by
  obtain ⟨c, r, hx, hy, e⟩ := threshold_default x y
  rw [e, (closedForm_properties c r).1]
  omega

/-- Of eight numbers in a row four have a given parity. -/
theorem length_filter_add_even (z : Int) :
    ((List.range 8).filter fun n : Nat => ((n : Int) + z) % 2 = 0).length = 4 := by
  rcases Int.emod_two_eq_zero_or_one z with h | h <;>
    simp [List.range_succ, Int.add_emod, h]

end Sys2Proof.Machine

namespace Sys2Proof.Proofs

open Sys2Proof Sys2Proof.Machine

/-- Settles O7, by evaluation of the 64 entries. -/
theorem defaultMatrixIsAPermutation : Obligations.DefaultMatrixIsAPermutation := by
  unfold Obligations.DefaultMatrixIsAPermutation
  decide

/-- Settles O8, with `threshold_default`. -/
theorem defaultMatrixHasTheClosedForm : Obligations.DefaultMatrixHasTheClosedForm := by
  intro x y
  obtain ⟨c, r, hx, hy, e⟩ := threshold_default x y
  rw [hx, hy, Int.toNat_natCast, Int.toNat_natCast]
  exact e

/-- Settles O9: each property is one of the closed form (`closedForm_properties`); a row and a column alternate
in parity, so half of their thresholds are below 32. -/
theorem defaultMatrixPositionProperties : Obligations.DefaultMatrixPositionProperties := by
  refine ⟨threshold_default_lt_iff, fun x y => ?_, fun x y => ?_, fun x y => ?_, fun y => ?_, fun x => ?_⟩
  · obtain ⟨c, r, hx, hy, e⟩ := threshold_default x y
    rw [e, (closedForm_properties c r).2.1]
    omega
  · obtain ⟨c, r, hx, hy, e⟩ := threshold_default x y
    rw [e, (closedForm_properties c r).2.2.1]
    omega
  · obtain ⟨c, r, hx, hy, e⟩ := threshold_default x y
    rw [e, (closedForm_properties c r).2.2.2]
    omega
  · simp only [threshold_default_lt_iff]
    exact length_filter_add_even y
  · simp only [threshold_default_lt_iff, Int.add_comm x]
    exact length_filter_add_even x

end Sys2Proof.Proofs

/-! PROOFS. The quantizer's other forms (spec 41_quantizer.md R83, R85, R87), its monotonicity (R91) and the
number of promoted pixels of a tile (R90). -/

namespace Sys2Proof.Machine

/-! ### The level as a clamped sum, R82 -/

theorem quantize_eq_min (v t bw top : Nat) :
    quantize v t bw top = min (v / bw + if t < scaled v bw then 1 else 0) top := by
  rcases quantize_cases v t bw top with ⟨h, e⟩ | ⟨h, e⟩
  · rw [e, if_pos h]
  · rw [e, if_neg (Nat.not_lt.2 h), Nat.add_zero]

theorem scaled_64 (v : Nat) : scaled v 64 = v % 64 := by
  rw [scaled_eq, Nat.mul_div_cancel _ (by decide)]

theorem scaled_128 (v : Nat) : scaled v 128 = v % 128 / 2 := by
  rw [scaled_eq]
  omega

theorem scaled_256 (v : Nat) : scaled v 256 = v % 256 / 4 := by
  rw [scaled_eq]
  omega

theorem bandwidth_pos (b : BwMono) : 0 < bandwidth b := by
  cases b <;> decide

/-- R87 for either bandwidth: the pixel is on in the solid band, and where the threshold promotes it. -/
theorem pixelMono_iff (cfg : Config) (col : Colour) (x y : Int) :
    pixelMono cfg col x y = true ↔
      bandwidth cfg.bwMono ≤ luma col ∨ threshold cfg.matrix x y < scaled (luma col) (bandwidth cfg.bwMono) := by
  have hsolid := Nat.div_pos_iff (a := luma col) (b := bandwidth cfg.bwMono)
  have hpos := bandwidth_pos cfg.bwMono
  rw [pixelMono, beq_iff_eq, quantize_eq_min]
  generalize luma col / bandwidth cfg.bwMono = base at hsolid ⊢
  split <;> omega

/-! ### Monotonicity, R91 -/

/-- Within one band the rescaled residual rises with the input. -/
theorem scaled_mono {v v' bw : Nat} (h : v ≤ v') (hband : v / bw = v' / bw) : scaled v bw ≤ scaled v' bw := by
  have hv := Nat.div_add_mod v bw
  have hv' := Nat.div_add_mod v' bw
  rw [hband] at hv
  rw [scaled_eq, scaled_eq]
  exact Nat.div_le_div_right (Nat.mul_le_mul_right 64 (by omega))

/-- A larger input is in the same band, with a larger residual, or in a higher one, which one promotion of the
lower cannot exceed. -/
theorem quantize_mono_input {v v' : Nat} (t bw top : Nat) (h : v ≤ v') :
    quantize v t bw top ≤ quantize v' t bw top := by
  rw [quantize_eq_min, quantize_eq_min]
  refine min_le_min_right top ?_
  rcases (Nat.div_le_div_right h : v / bw ≤ v' / bw).eq_or_lt with hband | hband
  · have := scaled_mono h hband
    split <;> split <;> omega
  · split <;> split <;> omega

theorem quantize_antitone_threshold {t t' : Nat} (v bw top : Nat) (h : t ≤ t') :
    quantize v t' bw top ≤ quantize v t bw top := by
  rw [quantize_eq_min, quantize_eq_min]
  refine min_le_min_right top ?_
  split <;> split <;> omega

/-! ### The thresholds of a tile, R90 -/

/-- The thresholds over a tile are the entries of the table, row by row. -/
theorem tilePositions_map_threshold (m : Matrix) (i j : Int) :
    (tilePositions i j).map (fun p => threshold m p.1 p.2) = m.toList.map BitVec.toNat := by
  refine List.ext_getElem (by simp [tilePositions]) fun n hn _ => ?_
  have hn' : n < 64 := by simpa [tilePositions] using hn
  have hpos : 8 * ((8 * j + ((n / 8 : Nat) : Int)) % 8).toNat + ((8 * i + ((n % 8 : Nat) : Int)) % 8).toNat = n := by
    omega
  simp only [tilePositions, List.map_map, List.getElem_map, List.getElem_range, Function.comp_apply,
    threshold_eq_getD, hpos]
  simp [List.getD, hn']

/-- The entries of a permutation table are the numbers 0 to 63. -/
theorem matrix_perm_range {cfg : Config} (h : cfg.wf) :
    (cfg.matrix.toList.map BitVec.toNat).Perm (List.range 64) := by
  refine (List.subperm_of_subset ?_ fun t ht => ?_).perm_of_length_le (by simp)
  · exact h.map fun a b => BitVec.eq_of_toNat_eq
  · obtain ⟨b, -, rfl⟩ := List.mem_map.1 ht
    exact List.mem_range.2 b.isLt

theorem countP_range_lt {n k : Nat} (h : n ≤ k) : (List.range k).countP (fun t => t < n) = n := by
  rw [List.countP_eq_length_filter, ← List.Ico.zero_bot, List.Ico.filter_lt, List.Ico.length]
  omega

/-- R90: in every tile as many thresholds lie below a number as there are numbers below it. -/
theorem tile_count_threshold_lt {cfg : Config} (h : cfg.wf) (i j : Int) {n : Nat} (hn : n ≤ 64) :
    ((tilePositions i j).filter fun p => threshold cfg.matrix p.1 p.2 < n).length = n := by
  calc ((tilePositions i j).filter fun p => threshold cfg.matrix p.1 p.2 < n).length
      = ((tilePositions i j).map fun p => threshold cfg.matrix p.1 p.2).countP (fun t => t < n) := by
        rw [List.countP_map, List.countP_eq_length_filter]
        rfl
    _ = (List.range 64).countP (fun t => t < n) := by
        rw [tilePositions_map_threshold, (matrix_perm_range h).countP_eq]
    _ = n := countP_range_lt hn

end Sys2Proof.Machine

namespace Sys2Proof.Proofs

open Sys2Proof Sys2Proof.Machine

/-- Settles O12: a bit field is a quotient's remainder, as the base and the rescaled residual are. -/
theorem quantizerIsBitSelection : Obligations.QuantizerIsBitSelection := by
  intro v
  have := v.isLt
  simp only [BitVec.extractLsb'_toNat, Nat.shiftRight_eq_div_pow, scaled_64, scaled_128, scaled_256]
  omega

/-- Settles O13: with bandwidth 64 the rescaled residual is the residual (`scaled_64`). -/
theorem colourQuantizerSimplified : Obligations.ColourQuantizerSimplified := by
  intro v t hv ht
  have e := quantize_eq_min v t 64 3
  rw [scaled_64, min_comm] at e
  refine ⟨e, fun h => ?_, fun h => ?_, fun k hk h => ?_, fun h1 h2 hne => ?_⟩ <;> rw [e] <;> split <;> omega

/-- Settles O14, from `pixelMono_iff`. -/
theorem monochromeQuantizerSimplified : Obligations.MonochromeQuantizerSimplified := by
  intro cfg col x y
  have hl := luma_le col
  refine ⟨fun hbw => ?_, fun hbw => ?_⟩
  · rw [pixelMono_iff, hbw, bandwidth, scaled_128]
    omega
  · rw [pixelMono_iff, hbw, bandwidth, scaled_256]
    omega

/-- Settles O17: the level by the band and the promotion, the luminance by its sum. -/
theorem quantizerIsMonotone : Obligations.QuantizerIsMonotone := by
  refine ⟨fun v v' t bw top _ h => quantize_mono_input t bw top h,
    fun v t t' bw top h => quantize_antitone_threshold v bw top h, fun c c' hr hg hb => ?_⟩
  exact Nat.div_le_div_right (by omega)

/-- Settles O18: `tile_count_threshold_lt` at the number `scaled v`, which is at most 63. -/
theorem tilePromotesScaledManyPixels : Obligations.TilePromotesScaledManyPixels := by
  intro cfg v bw i j hwf hbw
  exact tile_count_threshold_lt hwf i j (scaled_lt (by omega)).le

end Sys2Proof.Proofs

/-! PROOFS. Clipping (spec 42_clipping.md R102, R105, R106), one pixel step's effect (43_framebuffer_writer.md
R121, R126), and the effect of visiting a list of positions, which does not depend on their order (R145). -/

namespace Sys2Proof.Machine

/-! ### Clipping -/

theorem coord_toInt_range (c : Coord) : -32768 ≤ c.toInt ∧ c.toInt ≤ 32767 := by
  have hlo := BitVec.le_toInt c
  have hhi := BitVec.toInt_lt (x := c)
  norm_num at hlo hhi
  omega

theorem inRect_iff_visible (rect : Rect) (g : Geometry) (x y : Int) :
    InRect rect g x y ↔
      g.Visible x y ∧ rect.y.toInt ≤ y ∧ y < rect.y.toInt + rect.h.toInt ∧
        rect.x.toInt ≤ x ∧ x < rect.x.toInt + rect.w.toInt := by
  unfold InRect Geometry.Visible
  tauto

/-- R106: the clipped rows and columns are those of the requested rectangle that are visible. -/
theorem inRect_iff_clip (k : Latch) (g : Geometry) (x y : Int) :
    InRect k.rect g x y ↔
      ((clipRows k.yInt k.hInt g.height).1 ≤ y ∧ y < (clipRows k.yInt k.hInt g.height).2) ∧
        (clipCols k.xInt k.wInt (g.row y)).1 ≤ x ∧ x ≤ (clipCols k.xInt k.wInt (g.row y)).2 := by
  rw [clipRows_eq]
  simp only [InRect, clipCols, Latch.xInt, Latch.yInt, Latch.wInt, Latch.hInt]
  omega

/-! ### Visiting positions -/

@[simp] theorem visit_cfg (s : State) (p : Int × Int) : (visit s p).cfg = s.cfg := pixelStep_cfg _
@[simp] theorem visit_cmd (s : State) (p : Int × Int) : (visit s p).cmd = s.cmd := pixelStep_cmd _
@[simp] theorem visit_geo (s : State) (p : Int × Int) : (visit s p).geo = s.geo := pixelStep_geo _

theorem visit_wf {s : State} (h : s.mem.wf) (p : Int × Int) : (visit s p).mem.wf :=
  pixelStep_wf (s := { s with cx := p.1, cy := p.2 }) h

theorem visitAll_wf {s : State} (h : s.mem.wf) (ps : List (Int × Int)) : (visitAll s ps).mem.wf := by
  induction ps generalizing s with
  | nil => exact h
  | cons p ps ih => exact ih (visit_wf h p)

theorem visit_painted {s : State} (h : s.mem.wf) (p : Int × Int) :
    Painted s.cfg s.cmd s.geo (fun x y => x = p.1 ∧ y = p.2) s.mem (visit s p).mem :=
  pixelStep_painted (s := { s with cx := p.1, cy := p.2 }) h

/-- Visiting different visible positions paints those positions. -/
theorem visitAll_painted {s : State} {ps : List (Int × Int)} (hm : s.mem.wf) (hn : s.geo.columnsNonneg)
    (hc : s.geo.cellsDistinct s.cfg.format) (hv : ∀ p ∈ ps, s.geo.Visible p.1 p.2) (hd : ps.Nodup) :
    Painted s.cfg s.cmd s.geo (fun x y => (x, y) ∈ ps) s.mem (visitAll s ps).mem := by
  induction ps generalizing s with
  | nil => exact Painted.refl _ _ _ _ (by simp)
  | cons p ps ih =>
    obtain ⟨hp, hps⟩ := List.nodup_cons.1 hd
    have hrest := ih (s := visit s p) (visit_wf hm p) (by simpa using hn) (by simpa using hc)
      (fun q hq => by simpa using hv q (List.mem_cons_of_mem _ hq)) hps
    simp only [visit_cfg, visit_cmd, visit_geo] at hrest
    refine (visit_painted hm p).trans hrest hn hc (fun x y => ?_) ?_ fun x y h => hv _ h
    · rw [List.mem_cons, Prod.ext_iff]
    · rintro x y ⟨rfl, rfl⟩
      exact hp

/-- What a set of positions makes of a framebuffer is determined. -/
theorem Painted.unique {cfg : Config} {k : Latch} {g : Geometry} {P : Int → Int → Prop} {m m₁ m₂ : Memory}
    (h₁ : Painted cfg k g P m m₁) (h₂ : Painted cfg k g P m m₂) (hw₁ : m₁.wf) (hw₂ : m₂.wf) : m₁ = m₂ := by
  refine Memory.ext_of_pixels (fmt := cfg.format) (g := g) (P := P) hw₁ hw₂ (fun x y hp => ?_) fun a j hj ho => ?_
  · by_cases hs : k.selects cfg.format (pixelAt cfg.format g m x y)
    · rw [h₁.painted x y hp hs, h₂.painted x y hp hs]
    · rw [h₁.unselected x y hp hs, h₂.unselected x y hp hs]
  · rw [h₁.kept a j hj ho, h₂.kept a j hj ho]

end Sys2Proof.Machine

namespace Sys2Proof.Proofs

open Sys2Proof Sys2Proof.Machine

/-- Settles O19: the adjustments case by case, the rest from `clipRows_eq`. -/
theorem rowClippingIsIntersection : Obligations.RowClippingIsIntersection := by
  intro y h height hheight
  rw [clipRows_eq]
  refine ⟨fun y0 hh hh' hneg hpos hcut hkeep => ?_, rfl, fun hne => ?_, fun hempty => ?_⟩
  · rw [Prod.mk.injEq]
    omega
  · simp only at hne ⊢
    omega
  · simp only
    omega

/-- Settles O20 with `inRect_iff_clip`; a visible column is not left of its row's first, which R35(a) bounds. -/
theorem clippedPositionsAreTheVisibleRequested : Obligations.ClippedPositionsAreTheVisibleRequested := by
  intro k g cx cy hn
  refine ⟨?_, fun hv => hv.col_nonneg hn⟩
  rw [← and_assoc, ← inRect_iff_clip, inRect_iff_visible]
  rfl

/-- Settles O21: the fields' range bounds the sums, and the clipped ends are those sums' minima. -/
theorem clippingSumsDoNotWrap : Obligations.ClippingSumsDoNotWrap := by
  intro k r height
  have hx := coord_toInt_range k.rect.x
  have hy := coord_toInt_range k.rect.y
  have hw := coord_toInt_range k.rect.w
  have hh := coord_toInt_range k.rect.h
  refine ⟨?_, ?_, by rw [clipRows_eq], rfl⟩ <;> simp only [Latch.xInt, Latch.yInt, Latch.wInt, Latch.hInt] <;> omega

/-- Settles O22: the byte written is the byte read with the pixel's bit set (`setbit_getLsbD`). -/
theorem bitStoreReplacesOneBit : Obligations.BitStoreReplacesOneBit := by
  intro s q hwf
  have hread : (storeBitMono (s.mem.read s.curAddr) q s).mem.read s.curAddr
      = setbit (s.mem.read s.curAddr) (pixelBit s.cx) q := Memory.read_write_same hwf _ _
  refine ⟨rfl, rfl, fun b hb => ?_, fun a ha => Memory.read_write_other _ _ ha, ?_⟩
  · rw [hread, setbit_getLsbD _ _ _ hb]
  · rw [hread]
    rfl

/-- Settles O24: a pixel step paints its own position (`pixelStep_painted`) and leaves what that does not own. -/
theorem pixelStepChangesOnlyItsPixel : Obligations.PixelStepChangesOnlyItsPixel := by
  intro s hwf
  have hpaint := pixelStep_painted hwf
  refine ⟨fun a k hk hown => hpaint.kept a k hk ?_, fun a ha => pixelStep_read_other s ha,
    fun x y hn hc hcur hv hne => hpaint.pixelAt_outside hn hc ?_ hv ?_⟩
  · rintro x y ⟨rfl, rfl⟩
    exact hown
  · rintro x y ⟨rfl, rfl⟩
    exact hcur
  · rintro ⟨rfl, rfl⟩
    exact hne rfl

/-- Settles O25: both orders paint the same set of positions (`visitAll_painted`), which determines the
framebuffer (`Painted.unique`). -/
theorem scanOrderDoesNotMatter : Obligations.ScanOrderDoesNotMatter := by
  intro s ps qs hwf hn hc hv hd hperm
  have hps := visitAll_painted hwf hn hc hv hd
  have hqs := visitAll_painted (ps := qs) hwf hn hc (fun p hp => hv p (hperm.mem_iff.2 hp)) (hperm.nodup_iff.1 hd)
  simp only [← hperm.mem_iff] at hqs
  exact hps.unique hqs (visitAll_wf hwf ps) (visitAll_wf hwf qs)

end Sys2Proof.Proofs

/-! PROOFS. The invariants of the machine (spec 10_state.md R14 to R16, 44_command_execution.md R141, R142): what
a search leaves of the scan registers, and one lemma for each way in which a step leaves a next state. -/

namespace Sys2Proof.Machine

/-! ### The scan registers, R16 -/

/-- Between two moves of a scan: the rows are the clipped ones, the row is not above them, and the registers are
in range if a pixel is due. -/
structure ScanReady (s : State) : Prop where
  rows : clipRows s.cmd.yInt s.cmd.hInt s.geo.height = (s.y0, s.yend)
  row : s.y0 ≤ s.cy
  due : s.cy < s.yend → ScanInv s

theorem ScanInv.ready {s : State} (h : ScanInv s) : ScanReady s := ⟨h.rows, h.row.2.1, fun _ => h⟩

/-- The clipped rows exist (R102). -/
theorem clipRows_range {y h height y0 yend : Int} (e : clipRows y h height = (y0, yend)) : 0 ≤ y0 ∧ yend ≤ height := by
  rw [clipRows_eq, Prod.mk.injEq] at e
  omega

theorem yend_le_cy_add_rowsLeft (s : State) : s.yend ≤ s.cy + s.rowsLeft := by
  unfold State.rowsLeft
  omega

/-- A search over the rows left leaves the registers in range: where it ends before the last row, it is at the
first column of a row that has one. -/
theorem seekRow_ready {s : State} (hrows : clipRows s.cmd.yInt s.cmd.hInt s.geo.height = (s.y0, s.yend))
    (hrow : s.y0 ≤ s.cy) : ScanReady (seekRow s.rowsLeft s) := by
  obtain ⟨keeps, -, -⟩ := seekRow_keeps s.rowsLeft s
  obtain ⟨hle, -, hpos⟩ := seekRow_position s.rowsLeft s
  obtain ⟨h0, h1⟩ := clipRows_range hrows
  refine ⟨by rw [keeps.cmd, keeps.geo, keeps.y0, keeps.yend, hrows], by rw [keeps.y0]; omega, fun hlt => ?_⟩
  rw [keeps.yend] at hlt
  obtain ⟨hcx, hxs, hxe⟩ := hpos (hlt.trans_le (yend_le_cy_add_rowsLeft s))
  refine ⟨?_, ?_, by rw [keeps.cmd, keeps.geo, keeps.y0, keeps.yend, hrows], ?_⟩
  · rw [keeps.y0, keeps.yend, keeps.geo]
    omega
  · rw [keeps.geo]
    omega
  · rw [keeps.cmd, keeps.geo]
    exact ⟨hxs.ge, hxe.symm⟩

/-- The next position of a scan is in range again. -/
theorem advance_ready {s : State} (h : ScanInv s) : ScanReady (advance s) := by
  obtain ⟨hrow, hcol, hrows, hcols⟩ := h
  unfold advance
  simp only
  split
  · rename_i hlt
    simp only [nextCol_cx, nextCol_xe] at hlt
    refine ScanInv.ready ⟨hrow, ⟨?_, hlt, hcol.2.2⟩, hrows, ?_, hcols.2⟩
    · exact le_trans hcol.1 (by simp)
    · exact le_trans hcols.1 (by simp)
  · refine seekRow_ready (s := nextRow (nextCol s)) hrows ?_
    simp only [nextRow_y0, nextRow_cy, nextCol_y0, nextCol_cy]
    omega

/-- A pixel step touches none of the scan registers. -/
theorem ScanInv.pixelStep {s : State} (h : ScanInv s) : ScanInv (pixelStep s) := by
  obtain ⟨hrow, hcol, hrows, hcols⟩ := h
  constructor <;> simpa

/-- A grant puts the position where a pixel is due, or past the rows. -/
theorem grantCapture_ready (g : Geometry) (s : State) :
    ScanReady (seekRow (grantCapture g s).rowsLeft (grantCapture g s)) :=
  seekRow_ready (s := grantCapture g s) rfl (le_refl _)

theorem ScanInv.positionOk {s : State} (h : ScanInv s) : s.positionOk = true := by
  obtain ⟨hrow, hcol, -, -⟩ := h
  unfold State.positionOk
  exact decide_eq_true ⟨by omega, by omega, hcol⟩

/-! ### The invariant, move by move -/

theorem Inv.not_held {s : State} (h : Inv s) (hs : s.phase ≠ .scan) (hr : s.phase ≠ .rel) : s.held = false := by
  have := h.held
  simp_all

/-- The invariant of a state that holds nothing. -/
theorem Inv.of_not_held {t : State} (hm : t.mem.wf) (hc : t.cfg.wf) (hh : t.held = false) (hs : t.phase ≠ .scan)
    (hr : t.phase ≠ .rel) : Inv t where
  mem := hm
  rom := hc
  held := by simp [hh, hs, hr]
  geo h := by simp [hh] at h
  scan h := absurd h hs

/-- The invariant of a state that the choice of the phase ends. -/
theorem Inv.of_choosePhase {t : State} (hm : t.mem.wf) (hc : t.cfg.wf) (hh : t.held = true)
    (hg : t.geo.columnsNonneg ∧ t.geo.cellsDistinct t.cfg.format) (hready : ScanReady t) : Inv (choosePhase t) where
  mem := hm
  rom := hc
  held := by
    rw [choosePhase_held, choosePhase_phase, hh]
    split <;> simp
  geo _ := hg
  scan hp := by
    have hlt : t.cy < t.yend := by
      rw [choosePhase_phase] at hp
      split at hp
      · assumption
      · cases hp
    obtain ⟨hrow, hcol, hrows, hcols⟩ := hready.due hlt
    exact ⟨hrow, hcol, hrows, hcols⟩

theorem Inv.afterReset {s : State} (h : Inv s) (rest : List HostMove) :
    Inv (resetEngine { s with host := rest }) :=
  Inv.of_not_held h.mem h.rom rfl (by simp [resetEngine, State.resetOf])
    (by simp [resetEngine, State.resetOf])

theorem Inv.afterGrant {s : State} (h : Inv s) {g : Grant} (hg : g.wf s.cfg.format) (rest : List Answer) :
    Inv (enterScan g.geo { s with answers := rest }) := by
  obtain ⟨keeps, hmem, -⟩ := seekRow_keeps (grantCapture g.geo { s with answers := rest }).rowsLeft
    (grantCapture g.geo { s with answers := rest })
  refine Inv.of_choosePhase ?_ ?_ ?_ ?_ (grantCapture_ready g.geo _)
  · rw [hmem]
    exact h.mem
  · rw [keeps.cfg]
    exact h.rom
  · rw [keeps.held]
    rfl
  · rw [keeps.geo, keeps.cfg]
    exact ⟨hg.1, hg.2.2⟩

theorem Inv.afterScanMove {s : State} (h : Inv s) (hp : s.phase = .scan) (hh : s.held = true) :
    Inv (choosePhase (advance (pixelStep s))) := by
  obtain ⟨keeps, hmem, -⟩ := advance_keeps (pixelStep s)
  have keeps := (scanKeeps_pixelStep s).trans keeps
  refine Inv.of_choosePhase ?_ ?_ ?_ ?_ (advance_ready (h.scan hp).pixelStep)
  · rw [hmem]
    exact pixelStep_wf h.mem
  · rw [keeps.cfg]
    exact h.rom
  · rw [keeps.held, hh]
  · rw [keeps.geo, keeps.cfg]
    exact h.geo hh

/-- A command on an idle engine that meets the invariant leaves it. -/
theorem Inv.afterCommand {s t : State} (h : Inv s) (hp : s.phase = .idle) {k : Latch} (hr : runCommand k s = .next t) :
    Inv t := by
  have hh : s.held = false := h.not_held (by simp [hp]) (by simp [hp])
  rcases runCommand_cases k s with ⟨hb, -⟩ | ⟨-, -, e⟩ | ⟨rest, -, -, e⟩ | ⟨g, rest, -, -, -, e⟩ |
    ⟨_, _, -, -, -, e⟩
  · exact absurd hp hb
  · cases hr.symm.trans e
    exact Inv.of_not_held h.mem h.rom hh (by simp) (by simp)
  · cases hr.symm.trans e
    exact Inv.of_not_held h.mem h.rom hh (by simp) (by simp)
  · cases hr.symm.trans e
    obtain ⟨hcfg, -, hphase, hheld, -⟩ := grantedEnd_keeps k g.geo rest s
    exact Inv.of_not_held (grantedEnd_wf h.mem) (by rw [hcfg]; exact h.rom) hheld (by simp [hphase]) (by simp [hphase])
  · cases hr.symm.trans e

/-! ### The balance of port events, R141 and R142 -/

theorem choosePhase_ne_idle (s : State) : (choosePhase s).phase ≠ .idle := by
  rw [choosePhase_phase]
  split <;> simp

theorem not_balanced_of_access {e : Event} (h : e.isAccess = true) :
    e.isGrant = false ∧ e.isRelease = false ∧ e.isTake = false ∧ e.isDone = false := by
  cases e with
  | memRead a v => exact ⟨rfl, rfl, rfl, rfl⟩
  | memWrite a v => exact ⟨rfl, rfl, rfl, rfl⟩
  | _ => cases h

theorem filter_eq_nil_of_access {evs : List Event} (h : ∀ e ∈ evs, e.isAccess = true) {p : Event → Bool}
    (hp : ∀ e : Event, e.isAccess = true → p e = false) : evs.filter p = [] :=
  List.filter_eq_nil_iff.2 fun e he => Bool.not_eq_true _ ▸ hp e (h e he)

/-- Accesses are none of the events that are balanced. -/
theorem filter_access {evs : List Event} (h : ∀ e ∈ evs, e.isAccess = true) :
    evs.filter Event.isGrant = [] ∧ evs.filter Event.isRelease = [] ∧ evs.filter Event.isTake = [] ∧
      evs.filter Event.isDone = [] :=
  ⟨filter_eq_nil_of_access h fun _ ha => (not_balanced_of_access ha).1,
    filter_eq_nil_of_access h fun _ ha => (not_balanced_of_access ha).2.1,
    filter_eq_nil_of_access h fun _ ha => (not_balanced_of_access ha).2.2.1,
    filter_eq_nil_of_access h fun _ ha => (not_balanced_of_access ha).2.2.2⟩

/-- The balance goes on to a state with more events if these account for what changed in `HELD` and `PHASE`. -/
theorem TraceInv.of_append {s t : State} (h : TraceInv s) (evs : List Event) (htrace : t.trace = s.trace ++ evs)
    (hgrants : (evs.filter Event.isGrant).length + (if s.held then 1 else 0)
      = (evs.filter Event.isRelease).length + (if t.held then 1 else 0))
    (htakes : (evs.filter Event.isTake).length + (if s.phase = .idle then 0 else 1)
      = (evs.filter Event.isDone).length + (if t.phase = .idle then 0 else 1)) : TraceInv t := by
  obtain ⟨h1, h2⟩ := h
  constructor <;> rw [htrace, List.filter_append, List.filter_append, List.length_append, List.length_append] <;> omega

/-- A word that decodes to a command, taken by an idle engine. -/
theorem TraceInv.afterCommand {s t : State} (h : TraceInv s) (hp : s.phase = .idle) (hh : s.held = false)
    {w : CmdWord} {rest : List HostMove} {k : Latch} (hr : runCommand k (takeCommand w rest s) = .next t) :
    TraceInv t := by
  rcases runCommand_cases k (takeCommand w rest s) with ⟨hb, -⟩ | ⟨-, -, e⟩ | ⟨as, -, -, e⟩ | ⟨g, as, -, -, -, e⟩ |
    ⟨g, as, -, -, -, e⟩
  · exact absurd hp hb
  · cases hr.symm.trans e
    refine h.of_append [.take w, .captureRequest] (by simp) rfl ?_
    rw [hp]
    rfl
  · cases hr.symm.trans e
    refine h.of_append [.take w, .captureRequest, .deny, .done] (by simp) rfl ?_
    rw [hp]
    rfl
  · cases hr.symm.trans e
    obtain ⟨-, -, hphase, hheld, -⟩ := grantedEnd_keeps k g.geo as (takeCommand w rest s)
    obtain ⟨evs, htrace, hacc, -⟩ := grantedEnd_trace k g.geo as (takeCommand w rest s)
    obtain ⟨h1, h2, h3, h4⟩ := filter_access hacc
    refine h.of_append ([.take w, .captureRequest, .grant g.geo] ++ evs ++ [.release, .done])
      (by rw [htrace]; simp) ?_ ?_ <;>
      simp [List.filter_cons, Event.isGrant, Event.isRelease, Event.isTake, Event.isDone, hp, hh, hphase, hheld, h1,
        h2, h3, h4]
  · cases hr.symm.trans e

theorem TraceInv.afterGrant {s : State} (h : TraceInv s) (hp : s.phase = .req) (hh : s.held = false) (g : Geometry)
    (rest : List Answer) : TraceInv (enterScan g { s with answers := rest }) := by
  obtain ⟨keeps, -, htrace⟩ := seekRow_keeps (grantCapture g { s with answers := rest }).rowsLeft
    (grantCapture g { s with answers := rest })
  refine h.of_append [.grant g] ?_ ?_ ?_
  · exact htrace
  · have hheld : (enterScan g { s with answers := rest }).held = true := keeps.held
    rw [if_pos hheld, hh]
    rfl
  · rw [enterScan, if_neg (choosePhase_ne_idle _), hp]
    rfl

theorem TraceInv.afterScanMove {s : State} (h : TraceInv s) (hp : s.phase = .scan) :
    TraceInv (choosePhase (advance (pixelStep s))) := by
  obtain ⟨keeps, -, htrace⟩ := advance_keeps (pixelStep s)
  obtain ⟨h1, h2, h3, h4⟩ := filter_access fun e he => (pixelEvents_access s e he).1
  refine h.of_append (pixelEvents s) ?_ ?_ ?_
  · rw [choosePhase_trace, htrace, pixelStep_trace]
  · rw [h1, h2, choosePhase_held, keeps.held, pixelStep_held]
  · rw [h3, h4, if_neg (choosePhase_ne_idle _), hp]
    rfl

end Sys2Proof.Machine

namespace Sys2Proof.Proofs

open Sys2Proof Sys2Proof.Machine

/-- Settles O50, by the ways in which a step leaves a next state (`step_next_cases`). -/
theorem stepKeepsTheInvariant : Obligations.StepKeepsTheInvariant := by
  intro s t h hstep
  have idle (hp : s.phase = .idle) : s.held = false := h.not_held (by simp [hp]) (by simp [hp])
  rcases step_next_cases hstep with ⟨-, -, rfl⟩ | ⟨w, rest, e, hp, -, -, rfl⟩ | ⟨w, rest, i, hp, -, -, hrun⟩ |
    ⟨a, v, rest, hp, -, rfl⟩ | ⟨rest, -, -, rfl⟩ | ⟨-, -, rfl⟩ | ⟨rest, hp, -, rfl⟩ | ⟨g, rest, hp, -, hg, rfl⟩ |
    ⟨hp, hh, -, rfl⟩ | ⟨hp, hh, rfl⟩
  · exact h
  · exact Inv.of_not_held h.mem h.rom (idle hp) (by simp [rejectWord]) (by simp [rejectWord])
  · have htaken : Inv (takeCommand w rest s) :=
      Inv.of_not_held h.mem h.rom (idle hp) (by simp [hp]) (by simp [hp])
    exact htaken.afterCommand hp hrun
  · exact Inv.of_not_held (Memory.write_wf h.mem a v) h.rom (idle hp) (by simp [hp]) (by simp [hp])
  · exact h.afterReset rest
  · exact h
  · exact Inv.of_not_held h.mem h.rom (h.not_held (by simp [hp]) (by simp [hp])) (by simp) (by simp)
  · exact h.afterGrant hg rest
  · exact h.afterScanMove hp hh
  · exact Inv.of_not_held h.mem h.rom rfl (by simp) (by simp)

/-- Settles O51, by the ways in which a step leaves a next state: the events each adds are in balance. -/
theorem stepKeepsReleasesAndCompletionsMatched : Obligations.StepKeepsReleasesAndCompletionsMatched := by
  intro s t hinv h hstep
  have idle (hp : s.phase = .idle) : s.held = false := hinv.not_held (by simp [hp]) (by simp [hp])
  rcases step_next_cases hstep with ⟨-, -, rfl⟩ | ⟨w, rest, e, hp, -, -, rfl⟩ | ⟨w, rest, i, hp, -, -, hrun⟩ |
    ⟨a, v, rest, hp, -, rfl⟩ | ⟨rest, hp, -, rfl⟩ | ⟨-, -, rfl⟩ | ⟨rest, hp, -, rfl⟩ | ⟨g, rest, hp, -, hg, rfl⟩ |
    ⟨hp, hh, -, rfl⟩ | ⟨hp, hh, rfl⟩
  · exact h
  · refine h.of_append [.take w, .done] (by simp [rejectWord]) rfl ?_
    rw [hp]
    rfl
  · exact h.afterCommand hp (idle hp) hrun
  · exact h.of_append [] (by simp) rfl rfl
  · refine h.of_append [] (by simp [resetEngine]) ?_ ?_ <;> simp [resetEngine, State.resetOf, hp, idle hp]
  · exact h
  · refine h.of_append [.deny, .done] (by simp) rfl ?_
    rw [hp]
    rfl
  · exact h.afterGrant hp (hinv.not_held (by simp [hp]) (by simp [hp])) g.geo rest
  · exact h.afterScanMove hp
  · refine h.of_append [.release, .done] (by simp) ?_ ?_
    · rw [hh]
      rfl
    · rw [hp]
      rfl

/-- Settles O49: the reset state is idle and holds nothing, its table is the listed permutation. -/
theorem resetMeetsTheInvariant : Obligations.ResetMeetsTheInvariant :=
  ⟨Inv.of_not_held (by decide) (by decide) rfl (by decide) (by decide), ⟨rfl, rfl⟩⟩

end Sys2Proof.Proofs

/-! PROOFS. One step of the machine: what it never does (spec 60_exceptions.md R170, 20_memory.md R35), what it
keeps (10_state.md R12, R13), and how a busy engine holds the host (R17, R18, R136). -/

namespace Sys2Proof.Machine

/-! ### Steps of a busy and of an idle engine -/

theorem step_of_busy {s : State} (h : s.phase ≠ .idle) : step s = busyMove s := by
  unfold step nextAction
  cases hp : s.phase
  · exact absurd hp h
  all_goals rfl

/-- An idle engine runs a command or goes to a next state at once. -/
theorem step_of_idle {s : State} (hp : s.phase = .idle) :
    (∃ t, step s = .next t) ∨ ∃ w rest i, step s = runCommand (Instr.latchOf i) (takeCommand w rest s) := by
  unfold step nextAction idleAction
  rw [hp]
  cases s.host with
  | nil => exact .inl ⟨_, rfl⟩
  | cons mv rest =>
    cases mv with
    | command w =>
      simp only
      cases decodeWord s.cfg.format w with
      | error e => exact .inl ⟨_, rfl⟩
      | ok i => exact .inr ⟨w, rest, i, exec_eq _ _⟩
    | store a v => exact .inl ⟨_, rfl⟩
    | reset => exact .inl ⟨_, rfl⟩

theorem runCommand_ne_fault (k : Latch) (s : State) (f : Fault) : runCommand k s ≠ .fault f := by
  rcases runCommand_cases k s with ⟨-, e⟩ | ⟨-, -, e⟩ | ⟨_, -, -, e⟩ | ⟨_, _, -, -, -, e⟩ | ⟨_, _, -, -, -, e⟩ <;>
    simp [e]

theorem runCommand_refused {k : Latch} {s : State} {r : Refusal} (h : runCommand k s = .refused r) :
    r = .illFormedGeometry ∧ ∃ g rest, s.answers = .grant g :: rest ∧ ¬ g.wf s.cfg.format := by
  rcases runCommand_cases k s with ⟨-, e⟩ | ⟨-, -, e⟩ | ⟨_, -, -, e⟩ | ⟨_, _, -, -, -, e⟩ | ⟨g, rest, -, ha, hg, e⟩ <;>
    cases h.symm.trans e
  exact ⟨rfl, g, rest, ha, hg⟩

/-- An ill-formed grant is refused, to a command and to a step in `REQ` (R35, U6). -/
theorem runCommand_ill_formed {k : Latch} {s : State} {g : Grant} {rest : List Answer} (hp : s.phase = .idle)
    (ha : s.answers = .grant g :: rest) (hg : ¬ g.wf s.cfg.format) : runCommand k s = .refused .illFormedGeometry := by
  simp only [runCommand, hp, runCaptured, acceptCommand_answers, ha]
  exact if_neg (mt Grant.ok_iff.1 hg)

theorem step_ill_formed {s : State} {g : Grant} {rest : List Answer} (hp : s.phase = .req)
    (ha : s.answers = .grant g :: rest) (hg : ¬ g.wf s.cfg.format) : step s = .refused .illFormedGeometry := by
  rw [step_of_busy (by simp [hp])]
  simp only [busyMove, hp, ha]
  exact if_neg (mt Grant.ok_iff.1 hg)

/-- The faults of a step (log 15): no capture in `SCAN` or `REL`, or a position that is no visible pixel. -/
theorem step_fault_cases {s : State} {f : Fault} (h : step s = .fault f) :
    ((s.phase = .scan ∨ s.phase = .rel) ∧ s.held = false) ∨ (s.phase = .scan ∧ s.positionOk = false) := by
  by_cases hp : s.phase = .idle
  · rcases step_of_idle hp with ⟨t, e⟩ | ⟨w, rest, i, e⟩
    · cases h.symm.trans e
    · exact absurd (e.symm.trans h) (runCommand_ne_fault _ _ f)
  · rw [step_of_busy hp] at h
    unfold busyMove at h
    split at h
    · exact absurd ‹_› hp
    · split at h
      · cases h
      · cases h
      · split at h <;> cases h
    · rename_i hs
      split at h
      · exact .inl ⟨.inl hs, ‹_›⟩
      · split at h
        · cases h
        · exact .inr ⟨hs, Bool.eq_false_iff.2 ‹_›⟩
    · rename_i hr
      split at h
      · exact .inl ⟨.inr hr, ‹_›⟩
      · cases h

/-- The one refusal of a step (log 13): the next answer is a grant that is not well formed. -/
theorem step_refused_cases {s : State} {r : Refusal} (h : step s = .refused r) :
    r = .illFormedGeometry ∧ ∃ g rest, s.answers = .grant g :: rest ∧ ¬ g.wf s.cfg.format := by
  by_cases hp : s.phase = .idle
  · rcases step_of_idle hp with ⟨t, e⟩ | ⟨w, rest, i, e⟩
    · cases h.symm.trans e
    · exact runCommand_refused (s := takeCommand w rest s) (e.symm.trans h)
  · rw [step_of_busy hp] at h
    unfold busyMove at h
    split at h
    · exact absurd ‹_› hp
    · split at h
      · cases h
      · cases h
      · rename_i g rest ha
        split at h
        · cases h
        · rename_i hg
          cases h
          exact ⟨rfl, g, rest, ha, mt Grant.ok_iff.2 hg⟩
    · split at h
      · cases h
      · split at h <;> cases h
    · split at h <;> cases h

/-! ### What a step keeps -/

/-- A command that answers a next state leaves the build and the host's moves; an idle engine has taken it. -/
theorem runCommand_keeps {k : Latch} {s t : State} (h : runCommand k s = .next t) :
    t.cfg = s.cfg ∧ t.host = s.host ∧ (s.phase = .idle → t.cmd = k) := by
  rcases runCommand_cases k s with ⟨hp, e⟩ | ⟨-, -, e⟩ | ⟨rest, -, -, e⟩ | ⟨g, rest, -, -, -, e⟩ |
    ⟨_, _, -, -, -, e⟩ <;> cases h.symm.trans e
  · exact ⟨rfl, rfl, fun hi => absurd hi hp⟩
  · exact ⟨rfl, rfl, fun _ => rfl⟩
  · exact ⟨rfl, rfl, fun _ => rfl⟩
  · obtain ⟨hcfg, hcmd, -, -, -, hhost, -⟩ := grantedEnd_keeps k g.geo rest s
    exact ⟨hcfg, hhost, fun _ => hcmd⟩

theorem enterScan_keeps (g : Geometry) (s : State) :
    (enterScan g s).cfg = s.cfg ∧ (enterScan g s).cmd = s.cmd ∧ (enterScan g s).host = s.host := by
  obtain ⟨keeps, -, -⟩ := seekRow_keeps (grantCapture g s).rowsLeft (grantCapture g s)
  exact ⟨keeps.cfg, keeps.cmd, keeps.host⟩

theorem scanMove_keeps (s : State) :
    (choosePhase (advance (pixelStep s))).cfg = s.cfg ∧ (choosePhase (advance (pixelStep s))).cmd = s.cmd ∧
      (choosePhase (advance (pixelStep s))).host = s.host := by
  have keeps := (scanKeeps_pixelStep s).trans (advance_keeps (pixelStep s)).1
  exact ⟨keeps.cfg, keeps.cmd, keeps.host⟩

/-- A step of a busy engine leaves the build, the latch and the host's moves. -/
theorem step_busy_keeps {s t : State} (hp : s.phase ≠ .idle) (h : step s = .next t) :
    t.cfg = s.cfg ∧ t.cmd = s.cmd ∧ t.host = s.host := by
  rcases step_next_cases h with ⟨hi, -⟩ | ⟨_, _, _, hi, -⟩ | ⟨_, _, _, hi, -⟩ | ⟨_, _, _, hi, -⟩ | ⟨_, hi, -⟩ |
    ⟨-, -, rfl⟩ | ⟨rest, -, -, rfl⟩ | ⟨g, rest, -, -, -, rfl⟩ | ⟨-, -, -, rfl⟩ | ⟨-, -, rfl⟩
  iterate 5 exact absurd hi hp
  · exact ⟨rfl, rfl, rfl⟩
  · exact ⟨rfl, rfl, rfl⟩
  · exact enterScan_keeps g.geo { s with answers := rest }
  · exact scanMove_keeps s
  · exact ⟨rfl, rfl, rfl⟩

theorem step_keeps_cfg {s t : State} (h : step s = .next t) : t.cfg = s.cfg := by
  by_cases hp : s.phase = .idle
  · rcases step_next_cases h with ⟨-, -, rfl⟩ | ⟨_, _, _, -, -, -, rfl⟩ | ⟨w, rest, i, -, -, -, hrun⟩ |
      ⟨_, _, _, -, -, rfl⟩ | ⟨_, -, -, rfl⟩ | ⟨hb, -⟩ | ⟨_, hb, -⟩ | ⟨_, _, hb, -⟩ | ⟨hb, -⟩ | ⟨hb, -⟩
    · rfl
    · rfl
    · exact (runCommand_keeps hrun).1
    · rfl
    · rfl
    all_goals simp [hp] at hb
  · exact (step_busy_keeps hp h).1

/-! ### A busy move does not look at the host's moves -/

/-- The state with other moves waiting at the port. -/
def setHost (h : List HostMove) (s : State) : State := { s with host := h }

theorem pixelStep_setHost (h : List HostMove) (s : State) : pixelStep (setHost h s) = setHost h (pixelStep s) := by
  rw [pixelStep_eq, pixelStep_eq]
  rfl

theorem seekRow_setHost (h : List HostMove) (n : Nat) (s : State) :
    seekRow n (setHost h s) = setHost h (seekRow n s) := by
  induction n generalizing s with
  | zero => rfl
  | succ n ih =>
    by_cases hc : (startRow s).cx ≤ (startRow s).xe
    · rw [seekRow, seekRow, if_pos hc]
      exact if_pos hc
    · rw [seekRow, seekRow, if_neg hc]
      exact (if_neg hc).trans (ih (nextRow (startRow s)))

theorem advance_setHost (h : List HostMove) (s : State) : advance (setHost h s) = setHost h (advance s) := by
  by_cases hc : (nextCol s).cx ≤ (nextCol s).xe
  · rw [advance, advance, if_pos hc]
    exact if_pos hc
  · rw [advance, advance, if_neg hc]
    exact (if_neg hc).trans (seekRow_setHost h _ (nextRow (nextCol s)))

theorem enterScan_setHost (g : Geometry) (h : List HostMove) (s : State) :
    enterScan g (setHost h s) = setHost h (enterScan g s) :=
  congrArg choosePhase (seekRow_setHost h (grantCapture g s).rowsLeft (grantCapture g s))

/-- The same busy step with other moves at the port leaves the same state with those moves at the port. -/
theorem step_setHost {s t : State} (hp : s.phase ≠ .idle) (hstep : step s = .next t) (h : List HostMove) :
    step (setHost h s) = .next (setHost h t) := by
  rcases step_next_cases hstep with ⟨hi, -⟩ | ⟨_, _, _, hi, -⟩ | ⟨_, _, _, hi, -⟩ | ⟨_, _, _, hi, -⟩ | ⟨_, hi, -⟩ |
    ⟨hr, ha, rfl⟩ | ⟨rest, hr, ha, rfl⟩ | ⟨g, rest, hr, ha, hg, rfl⟩ | ⟨hs, hh, hk, rfl⟩ | ⟨hr, hh, rfl⟩
  iterate 5 exact absurd hi hp
  · rw [step_of_busy (s := setHost h t) hp]
    simp only [busyMove, setHost, hr, ha]
  · exact step_deny (s := setHost h s) hr ha
  · rw [← enterScan_setHost]
    exact step_grant (s := setHost h s) hr ha hg
  · rw [step_scan (s := setHost h s) hs hh hk, pixelStep_setHost, advance_setHost]
    rfl
  · exact step_rel (s := setHost h s) hr hh

theorem busy_iff (s : State) : s.busy = true ↔ s.phase ≠ .idle := by
  simp [State.busy]

end Sys2Proof.Machine

namespace Sys2Proof.Proofs

open Sys2Proof Sys2Proof.Machine

/-- Settles O52: the invariant excludes the states of `step_fault_cases` (R15, `ScanInv.positionOk`). -/
theorem noStepFaults : Obligations.NoStepFaults := by
  intro s f hinv hstep
  rcases step_fault_cases hstep with ⟨hp, hh⟩ | ⟨hp, hk⟩
  · simp [hinv.held.2 hp] at hh
  · simp [(hinv.scan hp).positionOk] at hk

/-- Settles O53: `step_refused_cases`, and the refusing branch of a command and of a step in `REQ`. -/
theorem onlyIllFormedGrantsAreRefused : Obligations.OnlyIllFormedGrantsAreRefused :=
  ⟨fun _ _ h => step_refused_cases h, fun i s _ _ hp ha hg => (exec_eq i s).trans (runCommand_ill_formed hp ha hg),
    fun _ _ _ hp ha hg => step_ill_formed hp ha hg⟩

/-- Settles O45: a busy step keeps the port and does not look at it (`step_setHost`). -/
theorem busyEngineHoldsTheHost : Obligations.BusyEngineHoldsTheHost := by
  intro s
  refine ⟨busy_iff s, fun hbusy => ?_⟩
  have hp := (busy_iff s).1 hbusy
  refine ⟨fun i => (exec_eq i s).trans (runCommand_busy hp), fun t hstep => ?_,
    fun t h hstep => step_setHost hp hstep h⟩
  obtain ⟨-, hcmd, hhost⟩ := step_busy_keeps hp hstep
  exact ⟨hhost, hcmd⟩

/-- Settles O46: a busy step keeps the latch (`step_busy_keeps`); of an idle engine's, only a command and the
reset write it. -/
theorem latchIsWrittenOnlyAtAcceptance : Obligations.LatchIsWrittenOnlyAtAcceptance := by
  intro s t hstep
  by_cases hp : s.phase = .idle
  · rcases step_next_cases hstep with ⟨-, -, rfl⟩ | ⟨_, _, _, -, -, -, rfl⟩ | ⟨w, rest, i, -, hhost, hd, hrun⟩ |
      ⟨_, _, _, -, -, rfl⟩ | ⟨rest, -, hhost, rfl⟩ | ⟨hb, -⟩ | ⟨_, hb, -⟩ | ⟨_, _, hb, -⟩ | ⟨hb, -⟩ | ⟨hb, -⟩
    · exact .inl rfl
    · exact .inl rfl
    · exact .inr (.inl ⟨w, rest, i, hp, hhost, hd, (runCommand_keeps hrun).2.2 hp⟩)
    · exact .inl rfl
    · exact .inr (.inr ⟨rest, hp, hhost, rfl⟩)
    all_goals simp [hp] at hb
  · exact .inl (step_busy_keeps hp hstep).2.1

/-- Settles O47 with `step_keeps_cfg`. -/
theorem romAndBuildNeverChange : Obligations.RomAndBuildNeverChange := by
  intro s t hstep
  rw [step_keeps_cfg hstep]
  exact ⟨rfl, rfl, rfl⟩

/-- Settles O43: `step_command`, in terms of `exec`. -/
theorem stepRunsTheDecodedCommand : Obligations.StepRunsTheDecodedCommand := by
  intro s w rest i hp hhost hd
  rw [step_command hp hhost hd, exec_eq]
  rfl

/-- Settles O44: the decoder's rejection leads to `rejectWord`, whose phase is the one the engine had. -/
theorem invalidWordIsTakenAndIgnored : Obligations.InvalidWordIsTakenAndIgnored := by
  intro s w rest e hp hhost hd
  simp only [step, nextAction, hp, idleAction, hhost, hd]
  have e : rejectWord w rest s
      = { s with phase := .idle, host := rest, trace := s.trace ++ [.take w] ++ [.done] } := rfl
  rw [e, ← hp]

/-- Settles O56, by evaluation of the reset state. -/
theorem resetState : Obligations.ResetState := by
  refine ⟨rfl, rfl, rfl, rfl, rfl⟩

/-- Settles O57: the step is the reset of the engine, which takes the build, the memory and the host's side over. -/
theorem resetMoveLeavesTheFramebuffer : Obligations.ResetMoveLeavesTheFramebuffer := by
  intro s rest hp hhost
  refine ⟨resetEngine { s with host := rest }, ?_, rfl, rfl, rfl, rfl, rfl, rfl, rfl, rfl⟩
  simp only [step, nextAction, hp, idleAction, hhost]

/-- Settles O58: the step writes one byte of the memory, and the engine reads that memory. -/
theorem hostStoreIsSeenByTheEngine : Obligations.HostStoreIsSeenByTheEngine := by
  intro s a v rest hp hhost hwf
  refine ⟨{ s with host := rest, mem := s.mem.write a v }, ?_, Memory.read_write_same hwf a v,
    fun b hb => Memory.read_write_other s.mem v hb, hp, rfl, rfl⟩
  simp only [step, nextAction, hp, idleAction, hhost]

end Sys2Proof.Proofs

/-! PROOFS. The scan, move by move (spec 44_command_execution.md R135, R139, R144; 10_state.md R16): when a
position is left to visit, where the next one is, and how the single moves make up the whole command. -/

namespace Sys2Proof.Machine

/-! ### Positions left to visit -/

/-- A row with a column to visit shows a position of the clipped rectangle, its first. -/
theorem exists_inRect_row_iff (k : Latch) (g : Geometry) (y : Int) :
    (∃ x, InRect k.rect g x y) ↔
      ((clipRows k.yInt k.hInt g.height).1 ≤ y ∧ y < (clipRows k.yInt k.hInt g.height).2) ∧ RowHasPixel k g y := by
  simp only [inRect_iff_clip]
  constructor
  · rintro ⟨x, hrow, hlo, hhi⟩
    exact ⟨hrow, hlo.trans hhi⟩
  · rintro ⟨hrow, hne⟩
    exact ⟨_, hrow, le_refl _, hne⟩

/-- A search over the rows left ends before the last of them exactly when one of them has a column to visit. -/
theorem seekRow_lt_yend_iff (s : State) :
    (seekRow s.rowsLeft s).cy < s.yend ↔ ∃ y, s.cy ≤ y ∧ y < s.yend ∧ RowHasPixel s.cmd s.geo y := by
  obtain ⟨hle, -, hpos⟩ := seekRow_position s.rowsLeft s
  constructor
  · intro hlt
    obtain ⟨hcx, hxs, hxe⟩ := hpos (hlt.trans_le (yend_le_cy_add_rowsLeft s))
    rw [hxs, hxe] at hcx
    exact ⟨_, hle, hlt, hcx⟩
  · rintro ⟨y, h0, h1, hy⟩
    by_contra hge
    exact seekRow_passes s.rowsLeft s h0 (by omega) hy

theorem choosePhase_scan_iff (s : State) : (choosePhase s).phase = .scan ↔ s.cy < s.yend := by
  rw [choosePhase_phase]
  split <;> simp_all

theorem choosePhase_eq_rel {s : State} (h : (choosePhase s).phase ≠ .scan) : (choosePhase s).phase = .rel := by
  rw [choosePhase_phase] at h ⊢
  split <;> simp_all

/-- R135, row `REQ`: a grant leads to `SCAN` exactly when the clipped rectangle has a position. -/
theorem enterScan_phase_iff (g : Geometry) (s : State) :
    (enterScan g s).phase = .scan ↔ ∃ x y, InRect s.cmd.rect g x y := by
  obtain ⟨keeps, -, -⟩ := seekRow_keeps (grantCapture g s).rowsLeft (grantCapture g s)
  rw [enterScan, choosePhase_scan_iff, keeps.yend, seekRow_lt_yend_iff, exists_comm]
  simp only [exists_inRect_row_iff, and_assoc]
  rfl

theorem advance_of_lt {s : State} (h : s.cx < s.xe) : advance s = nextCol s :=
  if_pos h

theorem advance_of_ge {s : State} (h : s.xe ≤ s.cx) :
    advance s = seekRow (nextRow (nextCol s)).rowsLeft (nextRow (nextCol s)) :=
  if_neg (Int.not_lt.2 h)

/-- In a scan the clipped rows and the end of the current row stand in the registers (R16). -/
theorem ScanInv.inRect_iff {s : State} (h : ScanInv s) (x y : Int) :
    InRect s.cmd.rect s.geo x y ↔
      (s.y0 ≤ y ∧ y < s.yend) ∧ (clipCols s.cmd.xInt s.cmd.wInt (s.geo.row y)).1 ≤ x ∧
        x ≤ (clipCols s.cmd.xInt s.cmd.wInt (s.geo.row y)).2 := by
  rw [inRect_iff_clip, h.rows]

/-- R135, row `SCAN`: the scan goes on exactly when a position comes after the current one. -/
theorem advance_lt_yend_iff {s : State} (h : ScanInv s) :
    (advance s).cy < s.yend ↔ ∃ x y, InRect s.cmd.rect s.geo x y ∧ ScanBefore (s.cx, s.cy) (x, y) := by
  have hrow := h.row
  have hcol := h.col
  have hcols := h.cols
  by_cases hlt : s.cx < s.xe
  · rw [advance_of_lt hlt, nextCol_cy]
    refine iff_of_true hrow.2.2.1 ⟨s.cx + 1, s.cy, (h.inRect_iff _ _).2 ⟨by omega, by omega, by omega⟩, .inr ⟨rfl, ?_⟩⟩
    simp only
    omega
  · rw [advance_of_ge (not_lt.1 hlt)]
    refine (seekRow_lt_yend_iff (nextRow (nextCol s))).trans ⟨?_, ?_⟩
    · rintro ⟨y, h0, h1, hy⟩
      rw [nextRow_cy, nextCol_cy] at h0
      exact ⟨_, y, (h.inRect_iff _ _).2 ⟨⟨by omega, h1⟩, le_refl _, hy⟩, .inl (by simp only; omega)⟩
    · rintro ⟨x, y, hin, hbefore⟩
      obtain ⟨hy, hlo, hhi⟩ := (h.inRect_iff x y).1 hin
      refine ⟨y, ?_, hy.2, hlo.trans hhi⟩
      rw [nextRow_cy, nextCol_cy]
      rcases hbefore with hnext | ⟨hsame, hright⟩
      · exact hnext
      · simp only at hsame hright
        subst hsame
        omega

/-- The same of the move that makes the pixel step. -/
theorem scanMove_phase_iff {s : State} (h : ScanInv s) :
    (choosePhase (advance (pixelStep s))).phase = .scan ↔
      ∃ x y, InRect s.cmd.rect s.geo x y ∧ ScanBefore (s.cx, s.cy) (x, y) := by
  have hiff := advance_lt_yend_iff h.pixelStep
  rw [pixelStep_cmd, pixelStep_geo, pixelStep_cx, pixelStep_cy] at hiff
  rw [choosePhase_scan_iff, (advance_keeps (pixelStep s)).1.yend, hiff]

/-- At the end of a row the position goes to the first column of the next row that has one. -/
theorem advance_to_row {s : State} (hx : s.xe ≤ s.cx) {y : Int} (h0 : s.cy < y) (h1 : y < s.yend)
    (hy : RowHasPixel s.cmd s.geo y) (hn : ∀ z, s.cy < z → z < y → ¬ RowHasPixel s.cmd s.geo z) :
    (advance s).cy = y ∧ (advance s).cx = (clipCols s.cmd.xInt s.cmd.wInt (s.geo.row y)).1 ∧
      (advance s).xe = (clipCols s.cmd.xInt s.cmd.wInt (s.geo.row y)).2 := by
  rw [advance_of_ge hx]
  exact seekRow_first (s := nextRow (nextCol s)) h0 h1 hy hn

/-- Where no row is left the position is past the last. -/
theorem advance_to_end {s : State} (hx : s.xe ≤ s.cx) (hcy : s.cy < s.yend)
    (hn : ∀ z, s.cy < z → z < s.yend → ¬ RowHasPixel s.cmd s.geo z) : (advance s).cy = s.yend := by
  rw [advance_of_ge hx]
  exact seekRow_none (s := nextRow (nextCol s)) hcy hn

/-! ### Steps in `REQ` and `SCAN` -/

/-- The phase an idle engine's command leaves: it waits for its answer, or has completed. -/
theorem runCommand_phase {k : Latch} {s t : State} (hp : s.phase = .idle) (h : runCommand k s = .next t) :
    (t.phase = .req ∧ s.answers = []) ∨ (t.phase = .idle ∧ s.answers ≠ []) := by
  rcases runCommand_cases k s with ⟨hb, -⟩ | ⟨-, ha, e⟩ | ⟨rest, -, ha, e⟩ | ⟨g, rest, -, ha, -, e⟩ | ⟨_, _, -, -, -, e⟩
  · exact absurd hp hb
  · cases h.symm.trans e
    exact .inl ⟨rfl, ha⟩
  · cases h.symm.trans e
    exact .inr ⟨rfl, by simp [ha]⟩
  · cases h.symm.trans e
    exact .inr ⟨(grantedEnd_keeps k g.geo rest s).2.2.1, by simp [ha]⟩
  · cases h.symm.trans e

/-- R135, row `IDLE`: the engine stays idle unless it takes a command whose request has no answer yet. -/
theorem step_idle_phase {s t : State} (hp : s.phase = .idle) (h : step s = .next t) :
    (t.phase = .idle ∨ t.phase = .req) ∧
      (t.phase = .req ↔ s.answers = [] ∧ ∃ w rest i, s.host = .command w :: rest ∧
        decodeWord s.cfg.format w = .ok i) := by
  rcases step_next_cases h with ⟨-, hh, rfl⟩ | ⟨w, rest, e, -, hh, hd, rfl⟩ | ⟨w, rest, i, -, hh, hd, hrun⟩ |
    ⟨a, v, rest, -, hh, rfl⟩ | ⟨rest, -, hh, rfl⟩ | ⟨hb, -⟩ | ⟨_, hb, -⟩ | ⟨_, _, hb, -⟩ | ⟨hb, -⟩ | ⟨hb, -⟩
  · simp [hp, hh]
  · simp [rejectWord, hh, hd]
  · rcases runCommand_phase (s := takeCommand w rest s) hp hrun with ⟨ht, ha⟩ | ⟨ht, ha⟩
    · exact ⟨.inr ht, iff_of_true ht ⟨ha, w, rest, i, hh, hd⟩⟩
    · exact ⟨.inl ht, iff_of_false (by simp [ht]) fun hw => ha hw.1⟩
  · simp [hp, hh]
  · simp [resetEngine, State.resetOf, hh]
  all_goals simp [hp] at hb

theorem step_req_grant {s t : State} {g : Grant} {rest : List Answer} (hp : s.phase = .req)
    (ha : s.answers = .grant g :: rest) (h : step s = .next t) :
    t = enterScan g.geo { s with answers := rest } := by
  by_cases hg : g.wf s.cfg.format
  · cases h.symm.trans (step_grant hp ha hg)
    rfl
  · cases h.symm.trans (step_ill_formed hp ha hg)

theorem step_scan_of_inv {s t : State} (hinv : Inv s) (hp : s.phase = .scan) (h : step s = .next t) :
    t = choosePhase (advance (pixelStep s)) := by
  cases h.symm.trans (step_scan hp (hinv.held.2 (.inl hp)) (hinv.scan hp).positionOk)
  rfl

/-! ### The single moves of a whole command -/

/-- A bound on the moves from a scan position to the release: the columns left, the width of the rectangle for
each row after, and the release. -/
def movesLeft (s : State) : Nat :=
  if s.cy < s.yend then s.colsLeft + (s.yend - s.cy - 1).toNat * s.cmd.wInt.toNat + 1 else 1

theorem ScanInv.colsLeft_le {s : State} (h : ScanInv s) : s.colsLeft ≤ s.cmd.wInt.toNat := by
  obtain ⟨-, -, -, hlo, hhi⟩ := h
  simp only [clipCols] at hlo hhi
  unfold State.colsLeft
  omega

/-- A row costs no more moves than the rectangle is wide. -/
theorem movesLeft_le {s : State} (h : ScanReady s) {rows : Nat} (hr : s.yend - s.cy ≤ rows) :
    movesLeft s ≤ rows * s.cmd.wInt.toNat + 1 := by
  unfold movesLeft
  split
  · rename_i hlt
    have hcols := (h.due hlt).colsLeft_le
    have hrows := Nat.mul_le_mul_right s.cmd.wInt.toNat (show (s.yend - s.cy - 1).toNat + 1 ≤ rows by omega)
    rw [Nat.succ_mul] at hrows
    omega
  · omega

/-- Every advance of the position leaves fewer moves. -/
theorem movesLeft_advance_lt {s : State} (h : ScanInv s) : movesLeft (advance s) < movesLeft s := by
  have hrow := h.row
  have hcol := h.col
  have hnow : movesLeft s = s.colsLeft + (s.yend - s.cy - 1).toNat * s.cmd.wInt.toNat + 1 := if_pos hrow.2.2.1
  by_cases hlt : s.cx < s.xe
  · have hnext : movesLeft (nextCol s)
        = (nextCol s).colsLeft + (s.yend - s.cy - 1).toNat * s.cmd.wInt.toNat + 1 := if_pos hrow.2.2.1
    rw [advance_of_lt hlt, hnow, hnext]
    unfold State.colsLeft
    rw [nextCol_cx, nextCol_xe]
    omega
  · obtain ⟨keeps, -, -⟩ := advance_keeps s
    have hcy : s.cy + 1 ≤ (advance s).cy := by
      rw [advance_of_ge (not_lt.1 hlt)]
      exact (seekRow_position _ (nextRow (nextCol s))).1
    have hnext := movesLeft_le (advance_ready h) (rows := (s.yend - s.cy - 1).toNat) (by rw [keeps.yend]; omega)
    rw [keeps.cmd] at hnext
    have hone : 0 < s.colsLeft := by
      unfold State.colsLeft
      omega
    omega

/-- From a scan position the single moves lead to the completed scan, within the bound. -/
theorem run_scan (m : Nat) {v : State} (hphase : v.phase = .scan) (hheld : v.held = true) (hready : ScanReady v)
    (hm : movesLeft v ≤ m) :
    ∃ n, n ≤ m ∧ Host.Core.run core n (choosePhase v) = .next (finishCommand (scanOn v)) := by
  induction m generalizing v with
  | zero =>
    unfold movesLeft at hm
    split at hm <;> omega
  | succ m ih =>
    by_cases hlt : v.cy < v.yend
    · have hinv := hready.due hlt
      have hstay : choosePhase v = v := by
        rw [choosePhase, if_pos hlt, ← hphase]
      have keeps := (scanKeeps_pixelStep v).trans (advance_keeps (pixelStep v)).1
      have hsame : movesLeft (pixelStep v) = movesLeft v := by simp [movesLeft, State.colsLeft]
      have hless := movesLeft_advance_lt hinv.pixelStep
      obtain ⟨n, hn, hrun⟩ := ih (v := advance (pixelStep v)) (keeps.phase.trans hphase) (keeps.held.trans hheld)
        (advance_ready hinv.pixelStep) (by omega)
      have hscan : scanOn v = scanOn (advance (pixelStep v)) :=
        (if_pos hlt).trans (scanFrom_eq v hinv.col.2.1 hlt)
      exact ⟨n + 1, by omega, by rw [hstay, run_succ n (step_scan hphase hheld hinv.positionOk), hrun, hscan]⟩
    · refine ⟨1, by omega, ?_⟩
      have hrel : (choosePhase v).phase = .rel := by
        rw [choosePhase_phase, if_neg hlt]
      rw [run_succ 0 (step_rel hrel hheld), run_zero, scanOn, if_neg hlt]
      rfl

/-- The latched height and width are below 2^15 (R52). -/
theorem hInt_le (k : Latch) : k.hInt ≤ 32767 := (coord_toInt_range k.rect.h).2

theorem wInt_le (k : Latch) : k.wInt ≤ 32767 := (coord_toInt_range k.rect.w).2

/-- R25, R144: after a well-formed grant the single moves reach the whole command's state, within the bound. -/
theorem run_granted {s : State} {g : Grant} {rest : List Answer} (k : Latch) (h : ReadyToGrant s g rest) :
    ∃ n, n ≤ 32767 * 32767 + 2 ∧
      Host.Core.run core n (acceptCommand k s) = .next (grantedEnd k g.geo rest s) := by
  have hstep : step (acceptCommand k s)
      = .next (choosePhase (seekRow (grantedStart k g.geo rest s).rowsLeft (grantedStart k g.geo rest s))) :=
    step_grant (s := acceptCommand k s) rfl h.answer h.wf
  have hend : grantedEnd k g.geo rest s
      = finishCommand (scanOn (seekRow (grantedStart k g.geo rest s).rowsLeft (grantedStart k g.geo rest s))) :=
    congrArg finishCommand (scanRows_eq_scanOn _ _ rfl)
  obtain ⟨keeps, -, -⟩ := seekRow_keeps (grantedStart k g.geo rest s).rowsLeft (grantedStart k g.geo rest s)
  have hready : ScanReady (seekRow (grantedStart k g.geo rest s).rowsLeft (grantedStart k g.geo rest s)) :=
    grantCapture_ready g.geo { acceptCommand k s with answers := rest }
  have hrows : (grantedStart k g.geo rest s).yend - (grantedStart k g.geo rest s).cy ≤ (32767 : Nat) := by
    rw [grantedStart_yend, grantedStart_cy]
    have := hInt_le k
    omega
  have hmoves := movesLeft_le hready (rows := 32767) (by
    have := (seekRow_position (grantedStart k g.geo rest s).rowsLeft (grantedStart k g.geo rest s)).1
    rw [keeps.yend]
    omega)
  rw [keeps.cmd, grantedStart_cmd] at hmoves
  have hwidth := wInt_le k
  obtain ⟨n, hn, hrun⟩ := run_scan (32767 * 32767 + 1) (keeps.phase.trans rfl) (keeps.held.trans rfl) hready
    (by omega)
  exact ⟨n + 1, by omega, by rw [run_succ n hstep, hrun, hend]⟩

theorem run_denied {s : State} {rest : List Answer} (k : Latch) (h : s.answers = .deny :: rest) :
    Host.Core.run core 1 (acceptCommand k s) = .next (denyCapture { acceptCommand k s with answers := rest }) := by
  rw [run_succ 0 (step_deny (s := acceptCommand k s) rfl h), run_zero]

end Sys2Proof.Machine

namespace Sys2Proof.Proofs

open Sys2Proof Sys2Proof.Machine

/-- Settles O54: `run_denied` and `run_granted` reach what `runCommand_cases` says the command leaves. -/
theorem singleMovesReachTheWholeCommand : Obligations.SingleMovesReachTheWholeCommand := by
  intro i s t hp ha hexec
  rw [exec_eq] at hexec
  rcases runCommand_cases i.latchOf s with ⟨hb, -⟩ | ⟨-, hnil, -⟩ | ⟨rest, -, hdeny, e⟩ | ⟨g, rest, -, hgrant, hg, e⟩ |
    ⟨_, _, -, -, -, e⟩
  · exact absurd hp hb
  · exact absurd hnil ha
  · cases hexec.symm.trans e
    exact ⟨1, run_denied i.latchOf hdeny⟩
  · cases hexec.symm.trans e
    obtain ⟨n, -, hrun⟩ := run_granted i.latchOf ⟨hp, hgrant, hg⟩
    exact ⟨n, hrun⟩
  · cases hexec.symm.trans e

/-- Settles O55: one move after a denial, and the bound of `run_granted` after a grant. -/
theorem commandCompletesWithinTheBound : Obligations.CommandCompletesWithinTheBound := by
  intro i s a rest hp ha hwf
  cases a with
  | deny => exact ⟨1, _, by omega, run_denied i.latchOf ha, rfl, rfl⟩
  | grant g =>
    obtain ⟨n, hn, hrun⟩ := run_granted i.latchOf ⟨hp, ha, hwf g rfl⟩
    obtain ⟨-, -, hphase, -, -, -, hanswers⟩ := grantedEnd_keeps i.latchOf g.geo rest s
    exact ⟨n, _, hn, hrun, hphase, hanswers⟩

/-- Settles O48, row by row of the phase table: `step_idle_phase`, `enterScan_phase_iff`, `scanMove_phase_iff`,
and the branches of a busy move that do not scan. -/
theorem phaseChangesAreThoseOfTheTable : Obligations.PhaseChangesAreThoseOfTheTable := by
  intro s t hstep
  refine ⟨fun hp => step_idle_phase hp hstep, fun hp ha => ?_, fun rest hp ha => ?_, fun g rest hp ha => ?_,
    fun hp hinv => ?_, fun hp => ?_⟩
  · rw [step_of_busy (by simp [hp])] at hstep
    simp only [busyMove, hp, ha] at hstep
    cases hstep
    exact hp
  · cases hstep.symm.trans (step_deny hp ha)
    rfl
  · have hiff := enterScan_phase_iff g.geo { s with answers := rest }
    cases step_req_grant hp ha hstep
    refine ⟨hiff.2, fun hno => choosePhase_eq_rel fun hscan => ?_⟩
    obtain ⟨x, y, hin⟩ := hiff.1 hscan
    exact hno x y hin
  · have hiff := scanMove_phase_iff (hinv.scan hp)
    cases step_scan_of_inv hinv hp hstep
    refine ⟨hiff.2, fun hno => choosePhase_eq_rel fun hscan => ?_⟩
    obtain ⟨x, y, hin, hafter⟩ := hiff.1 hscan
    exact hno x y hin hafter
  · rw [step_of_busy (by simp [hp])] at hstep
    simp only [busyMove, hp] at hstep
    split at hstep
    · cases hstep
    · cases hstep
      rfl

/-- Settles O60: a grant and the end of a row search the rows left (`seekRow_first`, `advance_to_row`); within a
row the position moves one column on. -/
theorem scanPositionMovesInOrder : Obligations.ScanPositionMovesInOrder := by
  refine ⟨fun s t g rest hp ha hstep => ?_, fun s t hinv hp hstep => ?_⟩
  · cases step_req_grant hp ha hstep
    obtain ⟨keeps, hmem, htrace⟩ := seekRow_keeps (grantCapture g.geo { s with answers := rest }).rowsLeft
      (grantCapture g.geo { s with answers := rest })
    refine ⟨keeps.geo, keeps.held, keeps.cmd, hmem, htrace, Prod.ext keeps.y0 keeps.yend, fun y h0 h1 hy hn => ?_⟩
    have hy0 := keeps.y0
    have hyend := keeps.yend
    obtain ⟨hcy, hcx, hxe⟩ := seekRow_first (s := grantCapture g.geo { s with answers := rest }) (y := y)
      (hy0.ge.trans h0) (h1.trans_eq hyend) hy fun z hz => hn z (hy0.trans_le hz)
    exact ⟨(choosePhase_scan_iff _).2 (by rw [hcy]; exact h1), hcy, Prod.ext hcx hxe⟩
  · cases step_scan_of_inv hinv hp hstep
    have hrow := (hinv.scan hp).row
    obtain ⟨keeps, hmem, htrace⟩ := advance_keeps (pixelStep s)
    have hcurrent := (scanKeeps_pixelStep s).trans keeps
    refine ⟨hmem, htrace, hcurrent.cmd, hcurrent.geo, hcurrent.held, hcurrent.y0, hcurrent.yend, fun hlt => ?_,
      fun hend => ⟨fun y h0 h1 hy hn => ?_, fun hn => ?_⟩⟩
    · have hmove : advance (pixelStep s) = nextCol (pixelStep s) := advance_of_lt (by simpa using hlt)
      rw [choosePhase_scan_iff, hmove]
      simpa using hrow.2.2.1
    · obtain ⟨hcy, hcx, hxe⟩ := advance_to_row (s := pixelStep s) (y := y) (by simpa using hend.ge) (by simpa using h0)
        (by simpa using h1) (by simpa using hy) (by simpa using hn)
      rw [pixelStep_cmd, pixelStep_geo] at hcx hxe
      exact ⟨(choosePhase_scan_iff _).2 (by rw [hcy, hcurrent.yend]; exact h1), hcy, Prod.ext hcx hxe⟩
    · have hcy := advance_to_end (s := pixelStep s) (by simpa using hend.ge) (by simpa using hrow.2.2.1)
        (by simpa using hn)
      rw [pixelStep_yend] at hcy
      refine ⟨choosePhase_eq_rel fun hscan => ?_, hcy⟩
      rw [choosePhase_scan_iff, hcy, hcurrent.yend] at hscan
      exact lt_irrefl _ hscan

end Sys2Proof.Proofs

/-! PROOFS. The events of a list of visits (spec 20_memory.md R38, 44_command_execution.md R147), and what a
granted command does in those terms: it makes the visits of the clipped rectangle in scan order (R139). -/

namespace Sys2Proof.Machine

/-! ### The order of a scan, R139 -/

theorem scanOrder_nodup {ps : List (Int × Int)} (h : ps.Pairwise ScanBefore) : ps.Nodup :=
  h.imp fun hab e => by
    subst e
    simp [ScanBefore] at hab

/-- The scan order of a set of positions is one list. -/
theorem scanOrder_unique {ps qs : List (Int × Int)} (hp : ps.Pairwise ScanBefore) (hq : qs.Pairwise ScanBefore)
    (h : ∀ p, p ∈ ps ↔ p ∈ qs) : ps = qs := by
  have hperm := (List.perm_ext_iff_of_nodup (scanOrder_nodup hp) (scanOrder_nodup hq)).2 h
  refine hperm.eq_of_pairwise (fun a b _ _ hab hba => ?_) hp hq
  simp only [ScanBefore] at hab hba
  omega

/-! ### The events of visits -/

/-- The accesses of visiting some positions one after the other. -/
def visitEvents : State → List (Int × Int) → List Event
  | _, [] => []
  | s, p :: ps => pixelEvents { s with cx := p.1, cy := p.2 } ++ visitEvents (visit s p) ps

theorem visitAll_trace (s : State) (ps : List (Int × Int)) :
    (visitAll s ps).trace = s.trace ++ visitEvents s ps := by
  induction ps generalizing s with
  | nil => simp [visitAll, visitEvents]
  | cons p ps ih =>
    show (visitAll (visit s p) ps).trace = _
    rw [ih, visit_trace, visitEvents, List.append_assoc]

/-- What holds of the events of a pixel step of the same build, latch and geometry, anywhere, holds of the
events of visits. -/
theorem visitEvents_forall {Q : Event → Prop} {s : State} (ps : List (Int × Int))
    (h : ∀ u : State, u.cfg = s.cfg → u.cmd = s.cmd → u.geo = s.geo → ∀ e ∈ pixelEvents u, Q e) :
    ∀ e ∈ visitEvents s ps, Q e := by
  induction ps generalizing s with
  | nil => simp [visitEvents]
  | cons p ps ih =>
    intro e he
    rcases List.mem_append.1 he with he | he
    · exact h { s with cx := p.1, cy := p.2 } rfl rfl rfl e he
    · exact ih (s := visit s p) (by simpa using h) e he

theorem visitEvents_access (s : State) (ps : List (Int × Int)) : ∀ e ∈ visitEvents s ps, e.isAccess = true :=
  visitEvents_forall ps fun u _ _ _ e he => (pixelEvents_access u e he).1

/-- Two states that agree on everything a visit depends on. -/
structure SameView (s t : State) : Prop where
  cfg : t.cfg = s.cfg
  cmd : t.cmd = s.cmd
  geo : t.geo = s.geo
  mem : t.mem = s.mem

/-- States that agree so and have the same record agree for a scan. -/
theorem SameView.sameScan {s t : State} (h : SameView s t) : SameScan s { t with trace := s.trace } :=
  ⟨h.cfg, h.cmd, h.geo, h.mem, rfl⟩

/-- A visit adds the same events in both and leaves them in agreement. -/
theorem SameView.visit {s t : State} (h : SameView s t) (p : Int × Int) :
    SameView (visit s p) (visit t p) ∧
      pixelEvents { t with cx := p.1, cy := p.2 } = pixelEvents { s with cx := p.1, cy := p.2 } := by
  have hv := h.sameScan.visit p
  have hmem : (Machine.visit { t with trace := s.trace } p).mem = (Machine.visit t p).mem := by
    unfold Machine.visit
    rw [pixelStep_mem, pixelStep_mem]
    rfl
  have htrace := hv.trace
  rw [visit_trace, visit_trace] at htrace
  refine ⟨⟨?_, ?_, ?_, hmem.symm.trans hv.mem⟩, List.append_cancel_left htrace⟩
  · rw [visit_cfg, visit_cfg, h.cfg]
  · rw [visit_cmd, visit_cmd, h.cmd]
  · rw [visit_geo, visit_geo, h.geo]

theorem SameView.visitAll {s t : State} (h : SameView s t) (ps : List (Int × Int)) :
    visitEvents t ps = visitEvents s ps ∧ (visitAll t ps).mem = (visitAll s ps).mem := by
  induction ps generalizing s t with
  | nil => exact ⟨rfl, h.mem⟩
  | cons p ps ih =>
    obtain ⟨hnext, hevents⟩ := h.visit p
    obtain ⟨hrest, hmem⟩ := ih hnext
    exact ⟨by rw [visitEvents, visitEvents, hevents, hrest], hmem⟩

/-! ### Reads and writes among them -/

/-- The addresses of the reads among some events, in order. -/
def readsOf (evs : List Event) : List Nat := (evs.filter Event.isRead).filterMap Event.address

/-- The addresses of the writes. -/
def writesOf (evs : List Event) : List Nat := (evs.filter Event.isWrite).filterMap Event.address

theorem readsOf_append (es fs : List Event) : readsOf (es ++ fs) = readsOf es ++ readsOf fs := by
  simp [readsOf]

theorem writesOf_append (es fs : List Event) : writesOf (es ++ fs) = writesOf es ++ writesOf fs := by
  simp [writesOf]

theorem readsOf_pixelEvents (s : State) : readsOf (pixelEvents s) = if pixelReads s then [s.curAddr] else [] := by
  unfold pixelEvents
  cases pixelReads s <;> cases pixelStores s <;> rfl

theorem writesOf_pixelEvents (s : State) : writesOf (pixelEvents s) = if pixelStores s then [s.curAddr] else [] := by
  unfold pixelEvents
  cases pixelReads s <;> cases pixelStores s <;> rfl

/-- R167: the visits of a replace read each position's byte once, in their order. -/
theorem readsOf_visitEvents {s : State} (hop : s.cmd.op = .replace) (ps : List (Int × Int)) :
    readsOf (visitEvents s ps) = ps.map fun p => s.geo.addr s.cfg.format p.1 p.2 := by
  induction ps generalizing s with
  | nil => rfl
  | cons p ps ih =>
    have hreads : pixelReads { s with cx := p.1, cy := p.2 } = true := by simp [pixelReads, hop]
    rw [visitEvents, readsOf_append, readsOf_pixelEvents, if_pos hreads, ih (s := visit s p) (by simpa using hop),
      visit_cfg, visit_geo]
    rfl

/-- Visits write at most once at each position, in their order. -/
theorem writesOf_visitEvents (s : State) (ps : List (Int × Int)) :
    (writesOf (visitEvents s ps)).Sublist (ps.map fun p => s.geo.addr s.cfg.format p.1 p.2) := by
  induction ps generalizing s with
  | nil => exact List.Sublist.slnil
  | cons p ps ih =>
    have hrest := ih (visit s p)
    rw [visit_cfg, visit_geo] at hrest
    rw [visitEvents, writesOf_append, writesOf_pixelEvents, List.map_cons]
    split
    · exact hrest.cons_cons _
    · exact hrest.cons _

/-- R38: a `FILL` in `COLOR` does not read. -/
theorem visitEvents_fill_color_not_read {s : State} (hop : s.cmd.op = .fill) (hf : s.cfg.format = .color)
    (ps : List (Int × Int)) : ∀ e ∈ visitEvents s ps, e.isRead = false := by
  refine visitEvents_forall ps fun u hcfg hcmd _ e he => ?_
  rw [pixelEvents_fill_color (by rw [hcmd, hop]) (by rw [hcfg, hf]), List.mem_singleton] at he
  rw [he]
  rfl

/-- The other events of a granted command are neither reads nor writes. -/
theorem readsOf_granted (g : Geometry) (evs : List Event) :
    readsOf ([.captureRequest, .grant g] ++ evs ++ [.release, .done]) = readsOf evs := by
  rw [readsOf_append, readsOf_append]
  exact List.append_nil _

theorem writesOf_granted (g : Geometry) (evs : List Event) :
    writesOf ([.captureRequest, .grant g] ++ evs ++ [.release, .done]) = writesOf evs := by
  rw [writesOf_append, writesOf_append]
  exact List.append_nil _

/-! ### A granted command as its visits -/

/-- R139, R147: a granted command makes the visits of the clipped rectangle, in scan order, between the grant
and the release. -/
theorem grantedEnd_visitEvents (k : Latch) (g : Geometry) (rest : List Answer) (s : State) :
    ∃ ps : List (Int × Int), ps.Pairwise ScanBefore ∧ (∀ p, p ∈ ps ↔ InRect k.rect g p.1 p.2) ∧
      (grantedEnd k g rest s).mem = (visitAll (grantedStart k g rest s) ps).mem ∧
      (grantedEnd k g rest s).trace = s.trace ++
        ([.captureRequest, .grant g] ++ visitEvents (grantedStart k g rest s) ps ++ [.release, .done]) := by
  obtain ⟨ps, ho, hin, hmem, htrace⟩ := grantedEnd_visits k g rest s
  refine ⟨ps, ho, hin, hmem, ?_⟩
  rw [htrace, visitAll_trace, grantedStart_trace]
  simp

theorem exec_granted {s : State} {g : Grant} {rest : List Answer} (i : Instr) (h : ReadyToGrant s g rest) :
    exec i s = .next (grantedEnd i.latchOf g.geo rest s) :=
  (exec_eq i s).trans (runCommand_granted h)

theorem exec_denied {s : State} {rest : List Answer} (i : Instr) (h : ReadyToDeny s rest) :
    exec i s = .next (denyCapture { acceptCommand i.latchOf s with answers := rest }) :=
  (exec_eq i s).trans (runCommand_denied h)

/-- What a granted command makes of the framebuffer, by pixels. -/
theorem grantedEnd_painted_of_ready {s : State} {g : Grant} {rest : List Answer} (k : Latch)
    (h : ReadyToGrant s g rest) (hm : s.mem.wf) :
    Painted s.cfg k g.geo (InRect k.rect g.geo) s.mem (grantedEnd k g.geo rest s).mem :=
  grantedEnd_painted hm h.wf.1 h.wf.2.2

/-- R146: painting the clipped rectangle is the big-step function. -/
theorem grantedEnd_bigStep {s : State} {g : Grant} {rest : List Answer} (i : Instr) (h : ReadyToGrant s g rest)
    (hm : s.mem.wf) : BigStep s.cfg i g.geo s.mem (grantedEnd i.latchOf g.geo rest s).mem := by
  have hp := grantedEnd_painted_of_ready i.latchOf h hm
  rw [latchOf_rect] at hp
  refine ⟨fun x y hin hs => ?_, fun x y hv hno => ?_, fun a j hj hno => ?_⟩
  · rw [hp.painted x y hin ((latchOf_selects ..).2 hs), latchOf_col]
  · by_cases hin : InRect i.rectOf g.geo x y
    · exact hp.unselected x y hin fun hs => hno ⟨hin, (latchOf_selects ..).1 hs⟩
    · exact hp.pixelAt_outside h.wf.1 h.wf.2.2 (fun _ _ => InRect.visible) hv hin
  · exact hp.kept a j hj fun x y hin => hno x y hin.visible

end Sys2Proof.Machine

/-! PROOFS. The commands (spec 44_command_execution.md, 45_fill.md, 46_replace.md), from what a granted command
makes of the framebuffer (`grantedEnd_bigStep`) and the visits it makes (`grantedEnd_visitEvents`). -/

namespace Sys2Proof.Machine

/-! ### A command's whole effect -/

/-- R135 to R142 for a granted command of an idle engine. -/
theorem exec_granted_effect {s : State} {g : Grant} {rest : List Answer} (i : Instr) (h : ReadyToGrant s g rest)
    (hm : s.mem.wf) :
    ∃ (t : State) (evs : List Event), exec i s = Host.Outcome.next t ∧ t.phase = Phase.idle ∧ t.held = false ∧
      t.cmd = i.latchOf ∧ t.geo = g.geo ∧ t.cfg = s.cfg ∧ t.host = s.host ∧ t.answers = rest ∧
      BigStep s.cfg i g.geo s.mem t.mem ∧
      t.trace = s.trace ++ ([.captureRequest, .grant g.geo] ++ evs ++ [.release, .done]) ∧
      ∀ e ∈ evs, e.isAccess = true := by
  obtain ⟨hcfg, hcmd, hphase, hheld, hgeo, hhost, hanswers⟩ := grantedEnd_keeps i.latchOf g.geo rest s
  obtain ⟨evs, htrace, haccess, -⟩ := grantedEnd_trace i.latchOf g.geo rest s
  exact ⟨_, evs, exec_granted i h, hphase, hheld, hcmd, hgeo, hcfg, hhost, hanswers, grantedEnd_bigStep i h hm,
    htrace, haccess⟩

/-- R138 for a denied command of an idle engine. -/
theorem exec_denied_effect {s : State} {rest : List Answer} (i : Instr) (h : ReadyToDeny s rest) :
    ∃ t : State, exec i s = Host.Outcome.next t ∧ t.mem = s.mem ∧ t.phase = Phase.idle ∧ t.answers = rest ∧
      t.trace = s.trace ++ [.captureRequest, .deny, .done] :=
  ⟨_, exec_denied i h, rfl, rfl, rfl, by simp⟩

/-- With no answer to come an engine in `REQ` stays as it is (log 11). -/
theorem run_unanswered {s : State} (hp : s.phase = .req) (ha : s.answers = []) (n : Nat) :
    Host.Core.run core n s = .next s := by
  have hstep : step s = .next s := by
    rw [step_of_busy (by simp [hp])]
    simp only [busyMove, hp, ha]
  induction n with
  | zero => rfl
  | succ n ih => rw [run_succ n hstep, ih]

/-! ### Commands that paint whatever they find -/

/-- The pixel step of a `FILL` or of a wildcard always stores. -/
theorem pixelStores_of_always {s : State} (h : s.cmd.op = .fill ∨ s.cmd.wild = true) : pixelStores s = true :=
  (pixelStores_iff s).2 (h.imp_right .inl)

theorem visit_mem_of_always {s : State} (h : s.cmd.op = .fill ∨ s.cmd.wild = true) (p : Int × Int) :
    (visit s p).mem =
      s.mem.write (s.geo.addr s.cfg.format p.1 p.2) (pixelByte { s with cx := p.1, cy := p.2 }) :=
  (pixelStep_mem { s with cx := p.1, cy := p.2 }).trans
    (if_pos (pixelStores_of_always (s := { s with cx := p.1, cy := p.2 }) h))

/-- States that agree on the colour to paint and where, for commands that paint whatever they find. -/
structure SamePaint (s t : State) : Prop where
  always : s.cmd.op = .fill ∨ s.cmd.wild = true
  always' : t.cmd.op = .fill ∨ t.cmd.wild = true
  cfg : t.cfg = s.cfg
  col : t.cmd.col = s.cmd.col
  geo : t.geo = s.geo
  mem : t.mem = s.mem

theorem SamePaint.visit {s t : State} (h : SamePaint s t) (p : Int × Int) : SamePaint (visit s p) (visit t p) := by
  refine ⟨by simpa using h.always, by simpa using h.always', by simpa using h.cfg, by simpa using h.col,
    by simpa using h.geo, ?_⟩
  rw [visit_mem_of_always h.always, visit_mem_of_always h.always']
  simp only [pixelByte, State.curAddr, State.curColor, State.curMono, h.cfg, h.col, h.geo, h.mem]

theorem SamePaint.visitAll {s t : State} (h : SamePaint s t) (ps : List (Int × Int)) :
    (visitAll t ps).mem = (visitAll s ps).mem := by
  induction ps generalizing s t with
  | nil => exact h.mem
  | cons p ps ih => exact ih (h.visit p)

/-- R157, R166: granted commands with the same rectangle and colour that paint whatever they find leave the same
framebuffer. -/
theorem grantedEnd_mem_of_always {k k' : Latch} (g : Geometry) (rest : List Answer) (s : State)
    (hk : k.op = .fill ∨ k.wild = true) (hk' : k'.op = .fill ∨ k'.wild = true) (hrect : k'.rect = k.rect)
    (hcol : k'.col = k.col) : (grantedEnd k' g rest s).mem = (grantedEnd k g rest s).mem := by
  obtain ⟨ps, ho, hin, hmem, -⟩ := grantedEnd_visits k g rest s
  obtain ⟨qs, ho', hin', hmem', -⟩ := grantedEnd_visits k' g rest s
  have e : qs = ps := scanOrder_unique ho' ho fun p => by rw [hin, hin', hrect]
  have paint : SamePaint (grantedStart k g rest s) (grantedStart k' g rest s) := ⟨hk, hk', rfl, hcol, rfl, rfl⟩
  rw [hmem, hmem', e, paint.visitAll ps]

/-- One half of R157: where one such command answers a next state, so does the other. -/
theorem runCommand_mem_of_always {k k' : Latch} {s t : State} (hk : k.op = .fill ∨ k.wild = true)
    (hk' : k'.op = .fill ∨ k'.wild = true) (hrect : k'.rect = k.rect) (hcol : k'.col = k.col)
    (h : runCommand k s = .next t) : ∃ u, runCommand k' s = .next u ∧ u.mem = t.mem := by
  rcases runCommand_cases k s with ⟨hb, e⟩ | ⟨hp, ha, e⟩ | ⟨rest, hp, ha, e⟩ | ⟨g, rest, hp, ha, hg, e⟩ |
    ⟨_, _, -, -, -, e⟩ <;> cases h.symm.trans e
  · exact ⟨_, runCommand_busy hb, rfl⟩
  · exact ⟨_, runCommand_waits hp ha, rfl⟩
  · exact ⟨_, runCommand_denied ⟨hp, ha⟩, rfl⟩
  · exact ⟨_, runCommand_granted ⟨hp, ha, hg⟩, grantedEnd_mem_of_always g.geo rest s hk hk' hrect hcol⟩

/-- R156: what such a command painted, it paints again without a change. -/
theorem Painted.again {cfg : Config} {k : Latch} {g : Geometry} {P : Int → Int → Prop} {m m' m'' : Memory}
    (hk : k.op = .fill ∨ k.wild = true) (h : Painted cfg k g P m m') (h' : Painted cfg k g P m' m'') (hw : m'.wf)
    (hw' : m''.wf) : m'' = m' := by
  refine Memory.ext_of_pixels (fmt := cfg.format) (g := g) (P := P) hw' hw (fun x y hp => ?_) h'.kept
  rw [h.painted x y hp (hk.imp_right .inl), h'.painted x y hp (hk.imp_right .inl)]

/-- R156: such a command, granted again on the framebuffer it left, leaves it. -/
theorem grantedEnd_mem_again {k : Latch} {g : Geometry} {rest : List Answer} {s t : State} (as : List Answer)
    (hk : k.op = .fill ∨ k.wild = true) (hm : s.mem.wf) (hn : g.columnsNonneg) (hc : g.cellsDistinct s.cfg.format)
    (hcfg : t.cfg = s.cfg) (hmem : t.mem = (grantedEnd k g rest s).mem) : (grantedEnd k g as t).mem = t.mem := by
  have hw : t.mem.wf := hmem ▸ grantedEnd_wf hm
  have hfirst := grantedEnd_painted (k := k) (rest := rest) hm hn hc
  have hsecond := grantedEnd_painted (k := k) (rest := as) hw hn (by rw [hcfg]; exact hc)
  rw [hcfg] at hsecond
  rw [← hmem] at hfirst
  exact hfirst.again hk hsecond hw (grantedEnd_wf hw)

/-! ### Two engines with the same command -/

/-- R24: what a granted command does is determined by the command, the grant, the build and the framebuffer. -/
theorem grantedEnd_congr (k : Latch) (g : Geometry) (rest : List Answer) {s u : State} (hcfg : u.cfg = s.cfg)
    (hmem : u.mem = s.mem) :
    (grantedEnd k g rest u).mem = (grantedEnd k g rest s).mem ∧
      ∃ evs, (grantedEnd k g rest s).trace = s.trace ++ evs ∧ (grantedEnd k g rest u).trace = u.trace ++ evs := by
  obtain ⟨ps, ho, hin, hm, ht⟩ := grantedEnd_visitEvents k g rest s
  obtain ⟨qs, ho', hin', hm', ht'⟩ := grantedEnd_visitEvents k g rest u
  have e : qs = ps := scanOrder_unique ho' ho fun p => by rw [hin, hin']
  have view : SameView (grantedStart k g rest s) (grantedStart k g rest u) := ⟨hcfg, rfl, rfl, hmem⟩
  obtain ⟨hevents, hmems⟩ := view.visitAll ps
  rw [e] at hm' ht'
  rw [hevents] at ht'
  exact ⟨by rw [hm, hm', hmems], _, ht, ht'⟩

end Sys2Proof.Machine

namespace Sys2Proof.Proofs

open Sys2Proof Sys2Proof.Machine

/-- Settles O29: `grantedEnd_bigStep` after a grant; a denial and an invalid word leave the memory. -/
theorem commandIsTheBigStepFunction : Obligations.CommandIsTheBigStepFunction := by
  refine ⟨fun i s g rest h hm => ⟨_, exec_granted i h, grantedEnd_bigStep i h hm⟩,
    fun i s rest h => ⟨_, exec_denied i h, rfl⟩, fun s t w rest e hp hhost hd hstep => ?_⟩
  cases hstep.symm.trans (invalidWordIsTakenAndIgnored s w rest e hp hhost hd)
  rfl

/-- Settles O26: the effect of a command (`exec_granted_effect`), which for `FILL` selects every pixel. -/
theorem fillPaintsTheClippedRectangle : Obligations.FillPaintsTheClippedRectangle := by
  intro rect col s hp hm
  refine ⟨fun g rest ha hg => ?_, fun rest ha => exec_denied_effect (.fill rect col) ⟨hp, ha⟩⟩
  obtain ⟨t, evs, hexec, hphase, hheld, hcmd, hgeo, hcfg, hhost, hanswers, hbig, htrace, haccess⟩ :=
    exec_granted_effect (.fill rect col) ⟨hp, ha, hg⟩ hm
  exact ⟨t, evs, hexec, hphase, hheld, hcmd, hgeo, hcfg, hhost, hanswers,
    fun x y hin => hbig.painted x y hin trivial, fun x y hv hout => hbig.kept x y hv fun h => hout h.1,
    htrace, haccess⟩

/-- Settles O27: the effect of a command, which for `REPLACE` selects the pixels that hold the filter. -/
theorem replaceRecoloursTheMatchingPixels : Obligations.ReplaceRecoloursTheMatchingPixels := by
  intro rect c col s hp hm
  refine ⟨fun g rest ha hg => ?_, fun rest ha => exec_denied_effect (.replace rect c col) ⟨hp, ha⟩⟩
  obtain ⟨t, evs, hexec, hphase, hheld, hcmd, hgeo, hcfg, hhost, hanswers, hbig, htrace, haccess⟩ :=
    exec_granted_effect (.replace rect c col) ⟨hp, ha, hg⟩ hm
  exact ⟨t, evs, hexec, hphase, hheld, hcmd, hgeo, hcfg, hhost, hanswers, hbig.painted, hbig.kept, htrace, haccess⟩

/-- Settles O28: the effect of a command, which for `REPLACE.ANY` selects every pixel. -/
theorem replaceAnyPaintsTheClippedRectangle : Obligations.ReplaceAnyPaintsTheClippedRectangle := by
  intro rect col s hp hm
  refine ⟨fun g rest ha hg => ?_, fun rest ha => exec_denied_effect (.replaceAny rect col) ⟨hp, ha⟩⟩
  obtain ⟨t, evs, hexec, hphase, hheld, hcmd, hgeo, hcfg, hhost, hanswers, hbig, htrace, haccess⟩ :=
    exec_granted_effect (.replaceAny rect col) ⟨hp, ha, hg⟩ hm
  exact ⟨t, evs, hexec, hphase, hheld, hcmd, hgeo, hcfg, hhost, hanswers,
    fun x y hin => hbig.painted x y hin trivial, fun x y hv hout => hbig.kept x y hv fun h => hout h.1,
    htrace, haccess⟩

/-- Settles O30: the state of `exec_denied`, whose phase is the one the engine had. -/
theorem deniedCommandIsSkipped : Obligations.DeniedCommandIsSkipped := by
  intro i s rest h
  have e : denyCapture { acceptCommand i.latchOf s with answers := rest }
      = { s with
          cmd := i.latchOf
          phase := .idle
          answers := rest
          trace := s.trace ++ [.captureRequest] ++ [.deny] ++ [.done] } := rfl
  rw [exec_denied i h, e, ← h.idle]

/-- Settles O32: the command is accepted, and `run_unanswered`. -/
theorem unansweredRequestWaits : Obligations.UnansweredRequestWaits := by
  intro i s hp ha
  exact ⟨(exec_eq i s).trans (runCommand_waits hp ha), run_unanswered (s := acceptCommand i.latchOf s) rfl ha⟩

/-- Settles O33: an invalid word, a denied and a granted command; the accesses of the last are its visits'
events, the same for every state that agrees on what a visit depends on (`SameView.visitAll`). -/
theorem eventsOfOneCommandWord : Obligations.EventsOfOneCommandWord := by
  intro s t w rest hp hhost hstep hidle
  cases hd : decodeWord s.cfg.format w with
  | error e =>
    cases hstep.symm.trans (invalidWordIsTakenAndIgnored s w rest e hp hhost hd)
    exact .inl ⟨e, rfl, by simp⟩
  | ok i =>
    rw [step_command hp hhost hd] at hstep
    rcases runCommand_cases i.latchOf (takeCommand w rest s) with ⟨hb, -⟩ | ⟨-, -, e⟩ | ⟨as, -, ha, e⟩ |
      ⟨g, as, -, ha, hg, e⟩ | ⟨_, _, -, -, -, e⟩
    · exact absurd hp hb
    · cases hstep.symm.trans e
      cases hidle
    · cases hstep.symm.trans e
      exact .inr (.inl ⟨i, as, rfl, ha, by simp⟩)
    · cases hstep.symm.trans e
      obtain ⟨ps, ho, hin, hmem, htrace⟩ := grantedEnd_visitEvents i.latchOf g.geo as (takeCommand w rest s)
      refine .inr (.inr ⟨i, g, as, ps, visitEvents (grantedStart i.latchOf g.geo as (takeCommand w rest s)) ps, rfl,
        ha, ?_, visitEvents_access _ ps, ho, ?_, fun u hcfg hcmd hgeo hm => ?_⟩)
      · rw [htrace, takeCommand_trace]
        simp
      · rw [← latchOf_rect]
        exact hin
      · have view : SameView (grantedStart i.latchOf g.geo as (takeCommand w rest s)) u := ⟨hcfg, hcmd, hgeo, hm⟩
        obtain ⟨hevents, hmems⟩ := view.visitAll ps
        exact ⟨by rw [visitAll_trace, hevents], hmems.trans hmem.symm⟩
    · cases hstep.symm.trans e

/-- Settles O34: the accesses are at positions of the clipped rectangle (`grantedEnd_trace`), which are visible
and so stored (R35(b)); the command paints that rectangle and nothing else. -/
theorem commandStaysInsideTheGrantedStorage : Obligations.CommandStaysInsideTheGrantedStorage := by
  intro i s g rest h hm
  obtain ⟨evs, htrace, -, haddress⟩ := grantedEnd_trace i.latchOf g.geo rest s
  have hpaint := grantedEnd_painted_of_ready i.latchOf h hm
  rw [latchOf_rect] at haddress hpaint
  refine ⟨_, evs, exec_granted i h, htrace, fun e he => ?_, fun a ha => grantedEnd_read_other fun x y hin e => ?_,
    hpaint.kept⟩
  · obtain ⟨x, y, hin, ha⟩ := haddress e he
    exact ⟨_, ha, h.wf.visible_stored hin.visible, x, y, hin, hin.visible, rfl⟩
  · exact ha (e ▸ h.wf.visible_stored hin.visible)

/-- Settles O35, by the cases of `runCommand_cases`. -/
theorem frameOfTheCommands : Obligations.FrameOfTheCommands := by
  intro i s t hexec
  rw [exec_eq] at hexec
  obtain ⟨hcfg, hhost, -⟩ := runCommand_keeps hexec
  refine ⟨hcfg, hhost, fun hb => ?_, fun hno => ?_, fun g rest ha hp => ?_⟩
  · cases hexec.symm.trans (runCommand_busy hb)
    rfl
  · rcases runCommand_cases i.latchOf s with ⟨-, e⟩ | ⟨-, -, e⟩ | ⟨rest, -, -, e⟩ | ⟨g, rest, -, ha, -⟩ |
      ⟨g, rest, -, ha, -⟩
    · cases hexec.symm.trans e
      exact ⟨rfl, rfl, rfl, rfl, rfl, rfl, rfl, rfl⟩
    · cases hexec.symm.trans e
      exact ⟨rfl, rfl, rfl, rfl, rfl, rfl, rfl, rfl⟩
    · cases hexec.symm.trans e
      exact ⟨rfl, rfl, rfl, rfl, rfl, rfl, rfl, rfl⟩
    · exact absurd ha (hno g rest)
    · exact absurd ha (hno g rest)
  · have hg : g.wf s.cfg.format := by
      by_contra hg
      cases hexec.symm.trans (runCommand_ill_formed hp ha hg)
    cases hexec.symm.trans (runCommand_granted ⟨hp, ha, hg⟩)
    obtain ⟨-, hcmd, -, hheld, hgeo, -, hanswers⟩ := grantedEnd_keeps i.latchOf g.geo rest s
    refine ⟨hcmd, hgeo, hheld, hanswers, fun a hno => grantedEnd_read_other ?_⟩
    rw [latchOf_rect]
    exact hno

/-- Settles O36: both commands paint whatever they find (`runCommand_mem_of_always`). -/
theorem fillEqualsWildcardReplace : Obligations.FillEqualsWildcardReplace := by
  intro rect col s
  refine ⟨fun t h => ?_, fun u h => ?_⟩
  · exact runCommand_mem_of_always (k := latchFill rect col) (k' := latchReplaceAny rect col)
      (.inl rfl) (.inr rfl) rfl rfl h
  · obtain ⟨t, ht, e⟩ := runCommand_mem_of_always (k := latchReplaceAny rect col) (k' := latchFill rect col)
      (.inr rfl) (.inl rfl) rfl rfl h
    exact ⟨t, ht, e.symm⟩

/-- Settles O37: inside the rectangle every `FILL` leaves the dithered value; a second one finds it there
already, and keeps every other bit. -/
theorem fillIgnoresOldPixelsAndIsIdempotent : Obligations.FillIgnoresOldPixelsAndIsIdempotent := by
  intro rect col s g rest h hm
  have hbig := grantedEnd_bigStep (.fill rect col) h hm
  refine ⟨_, exec_granted (.fill rect col) h, fun m hmw => ?_, fun as => ?_⟩
  · have h' : ReadyToGrant { s with mem := m } g rest := ⟨h.idle, h.answer, h.wf⟩
    have hbig' := grantedEnd_bigStep (.fill rect col) h' hmw
    refine ⟨_, exec_granted (.fill rect col) h', fun x y hin => ?_, fun x y hv hout => ?_⟩
    · rw [hbig.painted x y hin trivial]
      exact hbig'.painted x y hin trivial
    · exact hbig'.kept x y hv fun hin => hout hin.1
  · obtain ⟨hcfg, -, hphase, -, -, -, -⟩ := grantedEnd_keeps (Instr.fill rect col).latchOf g.geo rest s
    have h' : ReadyToGrant { grantedEnd (Instr.fill rect col).latchOf g.geo rest s with answers := .grant g :: as } g as :=
      ⟨hphase, rfl, by rw [hcfg]; exact h.wf⟩
    exact ⟨_, exec_granted (.fill rect col) h',
      grantedEnd_mem_again (rest := rest) (s := s) as (.inl rfl) hm h.wf.1 h.wf.2.2 hcfg rfl⟩

/-- Settles O38: nothing is selected where nothing matches, and `BigStep` keeps what is not selected. -/
theorem replaceWithoutMatchChangesNothing : Obligations.ReplaceWithoutMatchChangesNothing := by
  intro rect c col s g rest h hm
  have hpaint := grantedEnd_painted_of_ready (Instr.replace rect c col).latchOf h hm
  refine ⟨_, exec_granted (.replace rect c col) h, fun hnone => ?_, fun x y hv hno => ?_⟩
  · refine Memory.ext_of_pixels (fmt := s.cfg.format) (g := g.geo) (P := InRect rect g.geo) (grantedEnd_wf hm) hm
      (fun x y hin => hpaint.unselected x y hin fun hs => hnone ⟨x, y, hin, (latchOf_selects ..).1 hs⟩) hpaint.kept
  · refine (grantedEnd_bigStep (.replace rect c col) h hm).kept x y hv fun hs => ?_
    exact hno.elim (· hs.1) (· hs.2)

/-- Settles O39: none of a granted command's events is a read but those of its visits, and a `FILL` in `COLOR`
makes none (`visitEvents_fill_color_not_read`). -/
theorem colourFillNeverReads : Obligations.ColourFillNeverReads := by
  intro rect col s g rest h hf
  obtain ⟨ps, -, -, -, htrace⟩ := grantedEnd_visitEvents (Instr.fill rect col).latchOf g.geo rest s
  refine ⟨_, _, exec_granted (.fill rect col) h, htrace, fun e he => ?_⟩
  have hvisits := visitEvents_fill_color_not_read
    (s := grantedStart (Instr.fill rect col).latchOf g.geo rest s) rfl hf ps e
  simp only [List.mem_append, List.mem_cons, List.not_mem_nil, or_false] at he
  rcases he with ((rfl | rfl) | he) | rfl | rfl
  · rfl
  · rfl
  · exact hvisits he
  · rfl
  · rfl

/-- Settles O59: the reads and writes of the visits (`readsOf_visitEvents`, `writesOf_visitEvents`), the events
around them being neither. -/
theorem replaceLoadsEachPositionOnce : Obligations.ReplaceLoadsEachPositionOnce := by
  intro i s g rest hreplace h
  obtain ⟨ps, ho, hin, -, htrace⟩ := grantedEnd_visitEvents i.latchOf g.geo rest s
  rw [latchOf_rect] at hin
  have hop : i.latchOf.op = .replace := by
    rcases hreplace with ⟨_, _, _, rfl⟩ | ⟨_, _, rfl⟩ <;> rfl
  refine ⟨_, _, ps, exec_granted i h, htrace, ho, hin, ?_, ?_⟩
  · exact (readsOf_granted ..).trans (readsOf_visitEvents (s := grantedStart i.latchOf g.geo rest s) hop ps)
  · have hwrites := writesOf_visitEvents (grantedStart i.latchOf g.geo rest s) ps
    rw [← writesOf_granted g.geo] at hwrites
    exact hwrites

/-- Settles O40: the reads are one at each position's byte (O59), and in `COLOR` different visible positions have
different bytes (`Geometry.owns_unique`). -/
theorem colourReplaceReadsEachByteOnce : Obligations.ColourReplaceReadsEachByteOnce := by
  intro rect c col s g rest h hf
  obtain ⟨t, evs, ps, hexec, htrace, ho, hin, hreads, -⟩ :=
    replaceLoadsEachPositionOnce (.replace rect c col) s g rest (.inl ⟨rect, c, col, rfl⟩) h
  rw [hf] at hreads
  refine ⟨t, evs, hexec, htrace, ?_, fun x y hxy => ?_⟩
  · rw [hreads]
    refine (scanOrder_nodup ho).map_on fun p hp q hq e => ?_
    have hc := h.wf.2.2
    rw [hf] at hc
    obtain ⟨hx, hy⟩ := Geometry.owns_unique (fmt := .color) h.wf.1 hc ((hin p).1 hp).visible ((hin q).1 hq).visible
      (a := g.geo.addr .color p.1 p.2) (k := 0) rfl e.symm
    exact Prod.ext hx hy
  · rw [hreads]
    exact List.mem_map.2 ⟨(x, y), (hin (x, y)).2 hxy, rfl⟩

/-- Settles O41: below the bandwidth a pixel is on where its threshold promotes it (`pixelMono_iff`), and a tile
has as many such thresholds as R90 says (`tile_count_threshold_lt`). -/
theorem filledTileHasScaledManyPixelsOn : Obligations.FilledTileHasScaledManyPixelsOn := by
  intro rect col s g rest i j h hm hcfg hf hluma htile
  have hbig := grantedEnd_bigStep (.fill rect col) h hm
  refine ⟨_, exec_granted (.fill rect col) h, ?_⟩
  have hon : ∀ p ∈ tilePositions i j,
      (pixelAt .mono g.geo (grantedEnd (Instr.fill rect col).latchOf g.geo rest s).mem p.1 p.2 = .bit true ↔
        threshold s.cfg.matrix p.1 p.2 < scaled (luma col) (bandwidth s.cfg.bwMono)) := by
    intro p hp
    have hpaint := hbig.painted p.1 p.2 (htile p hp) trivial
    rw [hf] at hpaint
    rw [hpaint, pixelFor, hf]
    simp only [Pixel.bit.injEq, Instr.colourOf, pixelMono_iff]
    omega
  rw [List.filter_congr fun p hp => decide_eq_decide.2 (hon p hp)]
  exact tile_count_threshold_lt hcfg i j (scaled_lt (bandwidth_pos _)).le

/-- Settles O42: where the answers agree both engines take the same way through `runCommand_cases`, and a granted
one is determined by what they agree on (`grantedEnd_congr`). -/
theorem nothingIsCarriedBetweenCommands : Obligations.NothingIsCarriedBetweenCommands := by
  intro i s u t hs hu hcfg hmem hanswers hexec
  rw [exec_eq] at hexec
  simp only [exec_eq]
  rcases runCommand_cases i.latchOf s with ⟨hb, -⟩ | ⟨-, ha, e⟩ | ⟨rest, -, ha, e⟩ | ⟨g, rest, -, ha, hg, e⟩ |
    ⟨_, _, -, -, -, e⟩
  · exact absurd hs hb
  · cases hexec.symm.trans e
    exact ⟨_, [.captureRequest], runCommand_waits hu (hanswers.trans ha), hmem, rfl, rfl, hanswers, rfl, rfl⟩
  · cases hexec.symm.trans e
    exact ⟨_, [.captureRequest, .deny, .done], runCommand_denied ⟨hu, hanswers.trans ha⟩, hmem, rfl, rfl, rfl,
      by simp, by simp⟩
  · cases hexec.symm.trans e
    obtain ⟨hm, evs, ht, ht'⟩ := grantedEnd_congr i.latchOf g.geo rest hcfg hmem
    obtain ⟨-, hcmd, hphase, -, -, -, has⟩ := grantedEnd_keeps i.latchOf g.geo rest s
    obtain ⟨-, hcmd', hphase', -, -, -, has'⟩ := grantedEnd_keeps i.latchOf g.geo rest u
    exact ⟨_, evs, runCommand_granted ⟨hu, hanswers.trans ha, by rw [hcfg]; exact hg⟩, hm, hphase'.trans hphase.symm,
      hcmd'.trans hcmd.symm, has'.trans has.symm, ht, ht'⟩
  · cases hexec.symm.trans e

end Sys2Proof.Proofs
